-- ==== Sys2Proof/Word.lean ====
section
/-! DEFINITION. The word types of BCH-BDU: command, response and table words, table addresses
(bit positions of 30_encoding.md R60, R68, R73 and 20_memory.md R43; 00_scope.md R9: bit 0 is the
least significant). `Config` holds the widths by name, and `Config.wf` holds them to these. -/

namespace Sys2Proof

/-- A command word, `cmd[15:0]` (30_encoding.md R60). -/
abbrev CmdWord := BitVec 16

/-- A response word, `rsp[31:0]` (30_encoding.md R68). -/
abbrev RspWord := BitVec 32

/-- A word of the table space (30_encoding.md R73). -/
abbrev TblWord := BitVec 32

/-- A word address of the table space (20_memory.md R43). -/
abbrev TblAddr := BitVec 12

end Sys2Proof
end

