-- ==== Sys2Proof/Machine/Operands.lean ====
section
/-! DEFINITION. The operand forms: the level field, the table address, the fields of a table word. -/

namespace Sys2Proof.Machine

/-- The error-correction levels by name, in the order of 30_encoding.md R66. -/
inductive Level where
  | L | M | Q | H
deriving DecidableEq, Repr

/-- The row index `lvl` of a level (30_encoding.md R66). -/
def Level.row : Level → BitVec 2
  | .L => 0#2
  | .M => 1#2
  | .Q => 2#2
  | .H => 3#2

/-- The `level` field that names a level (30_encoding.md R66). -/
def Level.field (l : Level) : BitVec 3 := 0#1 ++ l.row

/-- The level a field names: none for 4..7 (30_encoding.md R66). -/
def levelOfField (level : BitVec 3) : Option Level :=
  match level.toNat with
  | 0 => some .L
  | 1 => some .M
  | 2 => some .Q
  | 3 => some .H
  | _ => none

/-- `level >= 4`, the test of 40_block_unpack.md R92 on the 3-bit natural (41_bch.md R125). -/
def levelInvalid (level : BitVec 3) : Bool := decide (4 ≤ level.toNat)

/-- `level[1:0]`: the row index of a valid level (40_block_unpack.md R91, R92). -/
def rowIndex (level : BitVec 3) : BitVec 2 := level.extractLsb' 0 2

/-- The word address `{version[7:0], lvl[1:0], tidx[1:0]}`, by concatenation (20_memory.md R43). -/
def tblAddr (version : BitVec 8) (lvl tidx : BitVec 2) : TblAddr := version ++ lvl ++ tidx

/-- A compact triple (repeatCount, totalCodewords, dataCodewords) (40_block_unpack.md R90). -/
structure Triple where
  rc : BitVec 8
  tc : BitVec 8
  dc : BitVec 8
deriving DecidableEq, Repr

/-- `present`, bit 31 of a table word (30_encoding.md R73). -/
def presentMark (w : TblWord) : Bool := w.getLsbD 31

/-- `last`, bit 30 of a table word (30_encoding.md R73). -/
def lastMark (w : TblWord) : Bool := w.getLsbD 30

/-- The compact triple in bits 23:16, 15:8, 7:0 of a table word, unsigned, unchecked
(30_encoding.md R73; 40_block_unpack.md R97, R100). -/
def tripleOf (w : TblWord) : Triple :=
  { rc := w.extractLsb' 16 8, tc := w.extractLsb' 8 8, dc := w.extractLsb' 0 8 }

/-- The table word that holds a triple and its two marks, zero in the ignored bits (30_encoding.md R73). -/
def tblWord (present last : Bool) (t : Triple) : TblWord :=
  BitVec.ofBool present ++ BitVec.ofBool last ++ 0#6 ++ t.rc ++ t.tc ++ t.dc

end Sys2Proof.Machine
end

