-- ==== Sys2Proof/Syntax.lean ====
section
/-! DEFINITION. The operations of BCH-BDU, one constructor per row of spec/opcode_table.json. -/

namespace Sys2Proof

/-- A command with its operands, each exactly as wide as its field (30_encoding.md R65), so that a
datum outside the contract cannot be written down (93_implementation_defined.md U3). -/
inductive Instr where
  /-- `UNPACK version, level` (40_block_unpack.md R91). Every `version` 0..255 and every `level`
  0..7 can be issued (30_encoding.md R61, R66). -/
  | unpack (version : BitVec 8) (level : BitVec 3)
  /-- `FMT data` (41_bch.md R126). -/
  | fmt (data : BitVec 5)
  /-- `VER data` (41_bch.md R127). -/
  | ver (data : BitVec 6)
deriving DecidableEq, Repr

end Sys2Proof
end

