-- ==== Sys2Proof/Decode.lean ====
section
/-! DEFINITION. The decoder of command words (30_encoding.md R77), the encoder written from the same
tables (R62, R63, R64), and the assembler's lines (R76). -/

namespace Sys2Proof

/-- What a command word decodes to (30_encoding.md R77): an operation, or `Illegal(c)`. -/
inductive Decoded where
  | instr (i : Instr)
  | illegal (c : CmdWord)
deriving DecidableEq, Repr

/-- `decode(c)`, total on 16-bit words (30_encoding.md R77). -/
def decode (c : CmdWord) : Decoded :=
  if c &&& 0xF800#16 = 0x0000#16 then .instr (.unpack (c.extractLsb' 0 8) (c.extractLsb' 8 3))
  else if c &&& 0xFFE0#16 = 0x4000#16 then .instr (.fmt (c.extractLsb' 0 5))
  else if c &&& 0xFFC0#16 = 0x8000#16 then .instr (.ver (c.extractLsb' 0 6))
  else .illegal c

/-- The command word of an instruction: format U (30_encoding.md R62), F (R63), V (R64). -/
def encode : Instr → CmdWord
  | .unpack version level => 0b00#2 ++ 0b000#3 ++ level ++ version
  | .fmt data => 0b01#2 ++ 0#9 ++ data
  | .ver data => 0b10#2 ++ 0#8 ++ data

/-- A row of spec/opcode_table.json: a word is the row's when its bits under `mask` are `bits`. -/
structure OpcodeRow where
  mnemonic : String
  bits : CmdWord
  mask : CmdWord
deriving DecidableEq, Repr

/-- Row `UNPACK` (30_encoding.md R62). -/
def unpackRow : OpcodeRow := { mnemonic := "UNPACK", bits := 0x0000#16, mask := 0xF800#16 }

/-- Row `FMT` (30_encoding.md R63). -/
def fmtRow : OpcodeRow := { mnemonic := "FMT", bits := 0x4000#16, mask := 0xFFE0#16 }

/-- Row `VER` (30_encoding.md R64). -/
def verRow : OpcodeRow := { mnemonic := "VER", bits := 0x8000#16, mask := 0xFFC0#16 }

/-- The opcode table. -/
def opcodeTable : List OpcodeRow := [unpackRow, fmtRow, verRow]

/-- The row an instruction belongs to. -/
def rowOf : Instr → OpcodeRow
  | .unpack _ _ => unpackRow
  | .fmt _ => fmtRow
  | .ver _ => verRow

/-- A line of a program (30_encoding.md R76): a level is one of L M Q H or a number 0..7, and `.cmd`
gives any raw word, legal or not. The text of a line is not read (log 18). -/
inductive AsmLine where
  | unpack (version : BitVec 8) (level : Machine.Level)
  | unpackNumber (version : BitVec 8) (level : BitVec 3)
  | fmt (data : BitVec 5)
  | ver (data : BitVec 6)
  | cmd (word : CmdWord)
deriving DecidableEq, Repr

/-- The command word a line assembles to (30_encoding.md R76). -/
def assemble : AsmLine → CmdWord
  | .unpack version level => encode (.unpack version level.field)
  | .unpackNumber version level => encode (.unpack version level)
  | .fmt data => encode (.fmt data)
  | .ver data => encode (.ver data)
  | .cmd word => word

/-- The instruction the decoder reads from the low `nbits` bits `w` of a command word, the bits
above them zero (30_encoding.md R60: every command is one 16-bit word). -/
def decodeTableWord (nbits w : Nat) : Option Instr :=
  match decode (BitVec.ofNat 16 (w % 2 ^ nbits)) with
  | .instr i => some i
  | .illegal _ => none

end Sys2Proof
end

