-- ==== Sys2Proof/Machine/Bits.lean ====
section
/-! DEFINITION. The most-significant-bit position primitive (00_scope.md R11), defined once and used
by both encoders (41_bch.md R130). -/

namespace Sys2Proof.Machine

/-- `bitlen(v)`: the position of the highest set bit plus one, 0 for the value 0 (00_scope.md R11). -/
def bitlen (v : Nat) : Nat := if v = 0 then 0 else 1 + Nat.log2 v

end Sys2Proof.Machine
end

