-- ==== Sys2Proof/Config.lean ====
section
/-! DEFINITION. What is fixed for one unit, and the values the spec leaves open. -/

namespace Sys2Proof

/-- The shifts, widths and entry size of 00_scope.md R6, by the rule's names and in its order, each
with the value R6 decides. The other rules of spec/ draw every word for these values, and the model
refuses a configuration with others (DEDUCED, safe; log 23). -/
structure Layout where
  /-- `FMT_SHIFT`: left shift of the format datum (41_bch.md R124). -/
  fmtShift : Nat := 10
  /-- `VER_SHIFT`: left shift of the version datum (41_bch.md R124). -/
  verShift : Nat := 12
  /-- `FMT_DW`: width of a format datum (30_encoding.md R63). -/
  fmtDw : Nat := 5
  /-- `FMT_RW`: width of a format result (00_scope.md R8; 41_bch.md R126). -/
  fmtRw : Nat := 15
  /-- `VER_DW`: width of a version datum (30_encoding.md R64). -/
  verDw : Nat := 6
  /-- `VER_RW`: width of a version result (30_encoding.md R69; 41_bch.md R127). -/
  verRw : Nat := 18
  /-- `MAX_TRIPLES`: the most compact triples one entry holds (20_memory.md R44). -/
  maxTriples : Nat := 4
  /-- `RC_W`: width of `repeatCount` (30_encoding.md R73). -/
  rcW : Nat := 8
  /-- `TC_W`: width of `totalCodewords` (30_encoding.md R73). -/
  tcW : Nat := 8
  /-- `DC_W`: width of `dataCodewords` (30_encoding.md R73). -/
  dcW : Nat := 8
  /-- `VER_W`: width of the version operand (30_encoding.md R62). -/
  verW : Nat := 8
  /-- `LVL_W`: width of the level operand (30_encoding.md R62). -/
  lvlW : Nat := 3
  /-- `CMD_W`: width of a command word (30_encoding.md R60). -/
  cmdW : Nat := 16
  /-- `RSP_W`: width of a response word (30_encoding.md R68). -/
  rspW : Nat := 32
  /-- `TW_W`: width of a table word (30_encoding.md R73). -/
  twW : Nat := 32
deriving DecidableEq, Repr

/-- The values 00_scope.md R6 decides, for which the other rules draw every word. -/
def Layout.decided : Layout := {}

/-- The configuration of a unit (00_scope.md R6): the layout parameters and the three BCH constants
(10_state.md R25: embedded constants, not writable registers). `Config.wf` is the constraint of R7
and R8 and the layout's. `TABLE`, R6's one other parameter, is the field `table` of the state. -/
structure Config extends Layout where
  /-- `G15`: generator pattern of the 15-bit code. -/
  g15 : Nat
  /-- `G18`: generator pattern of the 18-bit code. -/
  g18 : Nat
  /-- `FMT_MASK`: XORed into the format information last. -/
  fmtMask : Nat
deriving DecidableEq, Repr

/-- The values 00_scope.md R6 decides. UNVERIFIED, unsafe: the spec marks them 'from general
knowledge, not in source' (41_bch.md R131; log 3). -/
def Config.decided : Config := { g15 := 0x537, g18 := 0x1F25, fmtMask := 0x5412 }

/-- A free value of width `w`, one for every draw: the content a register is left with where the
spec says it is unspecified (10_state.md R29; 93_implementation_defined.md U7: `any value`). It has
no body: nothing can be proved of it. Safe (log 6). -/
opaque Config.freeBits : (w : Nat) → Nat → BitVec w

end Sys2Proof
end

