-- ==== Sys2Proof/Machine/State.lean ====
section
/-! DEFINITION. The state of BCH-BDU as plain data: the registers of 10_state.md, the table, the
constants, the two channels and the environment's coming choices; the reasons a step stops; reset. -/

namespace Sys2Proof.Machine

/-- The phase register `st` (10_state.md R21). The encoding 3 is never taken and has no value here
(R32, 92_eei_decisions.md D24; DEDUCED, safe: log 17). -/
inductive Phase where
  /-- No command in progress. -/
  | idle
  /-- One response word, held in `rw`, remains to be delivered. -/
  | one
  /-- An `UNPACK` is in progress and descriptors are being produced. -/
  | seq
deriving DecidableEq, Repr

/-- The input pins at one rising edge of `clk` (10_state.md R31), as the environment sets them. -/
structure Edge where
  /-- `rst`. -/
  rst : Bool
  /-- The requester raises `cmd_valid` if it has a word to offer. -/
  offer : Bool
  /-- `rsp_ready`. -/
  rspReady : Bool
deriving DecidableEq, Repr

/-- The pins at an edge for which no others are scheduled: no reset, the requester offers, the
consumer is ready (95_test_vectors.md section 3). DESIGN CHOICE, unsafe (log 9). -/
def Edge.ready : Edge := { rst := false, offer := true, rspReady := true }

/-- The table space (20_memory.md R41): the words that differ from `unlistedWord`, by rising word
address. Words, not bytes: the space has no smaller unit (R40, R47; log 1). -/
abbrev Memory := List (Nat × TblWord)

/-- What a table word that is not listed reads as: `present = 0`, no entry. DESIGN CHOICE, unsafe (log 2). -/
def unlistedWord : TblWord := 0#32

/-- The machine: the registers, the parameters of the run, the channels, the environment. -/
structure State where
  /-- Phase register (10_state.md R21). -/
  st : Phase
  /-- Response register (10_state.md R23). -/
  rw : RspWord
  /-- `version` operand of the `UNPACK` in progress (10_state.md R24). -/
  ver : BitVec 8
  /-- Row index of its level (10_state.md R24). -/
  lvl : BitVec 2
  /-- Index of the compact triple now loaded (10_state.md R24). -/
  tidx : BitVec 2
  /-- Descriptors of the loaded triple still to be emitted (10_state.md R24). -/
  rep : BitVec 8
  /-- `totalCodewords` of the loaded triple (10_state.md R24). -/
  tc : BitVec 8
  /-- `dataCodewords` of the loaded triple (10_state.md R24). -/
  dc : BitVec 8
  /-- The loaded triple is the last of its entry (10_state.md R24). -/
  lastf : Bool
  /-- The configuration of 00_scope.md R6 (`TABLE` apart), constant in every run (log 3, 23). -/
  cfg : Config
  /-- `TABLE` (20_memory.md R41), constant in every run (R53). -/
  table : Memory
  /-- The command channel (20_memory.md R40, R45): the words the requester still offers, in order. -/
  offered : List CmdWord
  /-- The response channel (20_memory.md R40, R46): the words transferred so far, in order. -/
  sent : List RspWord
  /-- The pins at the coming clock edges, the next first (10_state.md R31; the model's own, log 9). -/
  edges : List Edge
  /-- How many free values have been drawn (the model's own, log 6). -/
  fresh : Nat
deriving DecidableEq, Repr

/-- The faults a step can end in. There is none: the spec gives the unit no condition that stops
it; every error is an `ERR` word after which the unit goes on (60_exceptions.md R154, R159, R165). -/
inductive Fault where
deriving DecidableEq, Repr

/-- The refusals a step can end in. -/
inductive Refusal where
  /-- An instruction that has no meaning yet (raised by an arm of `exec`; none is left). Safe. -/
  | notModelled (mnemonic : String)
  /-- The configuration is ill formed. Its constants break 00_scope.md R7 or R8: 'should be refused as
  ill-formed, not run' (41_bch.md R124; 93_implementation_defined.md U14; log 4), or it has a layout
  parameter for which the spec draws no words (log 23). Raised by `step`. Safe. -/
  | illFormedConfig
deriving DecidableEq, Repr

/-- The unit after reset: `st = IDLE` (10_state.md R29). DESIGN CHOICE, unsafe: the registers R29
leaves unspecified hold 0 (log 5), the table lists nothing (log 2), the requester offers nothing
and no edge is scheduled (log 8, 9). The constants are those of 00_scope.md R6 (UNVERIFIED, log 3). -/
def State.reset : State :=
  { st := .idle, rw := 0#32, ver := 0#8, lvl := 0#2, tidx := 0#2, rep := 0#8, tc := 0#8, dc := 0#8,
    lastf := false, cfg := Config.decided, table := [], offered := [], sent := [], edges := [],
    fresh := 0 }

end Sys2Proof.Machine
end

