-- ==== Sys2Proof/Machine/Flags.lean ====
section
/-! DEFINITION. The unit has no condition code (10_state.md R21, R25); what is one bit wide is here:
the `lastf` computation and the handshake signals. -/

namespace Sys2Proof.Machine

/-- What `load(w, i)` writes to `lastf`: the `last` mark, or the last of the `MAX_TRIPLES` words an
entry can have, `i == 3`, whatever its mark (40_block_unpack.md R93; 30_encoding.md R74; 20_memory.md
R44). -/
def lastFlag (maxTriples : Nat) (w : TblWord) (i : BitVec 2) : Bool :=
  lastMark w || decide (i.toNat + 1 = maxTriples)

/-- The pins at the coming edge. -/
def State.edge (s : State) : Edge := s.edges.head?.getD Edge.ready

/-- `cmd_valid`: the requester offers a word (10_state.md R31). -/
def State.cmdValid (s : State) : Bool := s.edge.offer && !s.offered.isEmpty

/-- `cmd_ready = (st == IDLE) AND (rst == 0)` (10_state.md R33). -/
def State.cmdReady (s : State) : Bool := decide (s.st = .idle) && !s.edge.rst

/-- `rsp_valid = ((st == ONE) OR (st == SEQ AND rep != 0)) AND (rst == 0)` (10_state.md R33). -/
def State.rspValid (s : State) : Bool :=
  (decide (s.st = .one) || (decide (s.st = .seq) && decide (s.rep ≠ 0#8))) && !s.edge.rst

/-- A command word is transferred at the coming edge (20_memory.md R45). -/
def State.cmdTransfer (s : State) : Bool := s.cmdValid && s.cmdReady

/-- A response word is transferred at the coming edge (20_memory.md R46). -/
def State.rspTransfer (s : State) : Bool := s.rspValid && s.edge.rspReady

end Sys2Proof.Machine
end

