-- ==== Sys2Proof/Machine/Response.lean ====
section
/-! DEFINITION. The response words (30_encoding.md R68 to R72) and the error kinds
(60_exceptions.md R150, R151). -/

namespace Sys2Proof.Machine

/-- `kind = rsp[31:30]` (30_encoding.md R68): `VALUE` 0, `DESC` 1, `END` 2, `ERR` 3. -/
def rspKind (w : RspWord) : BitVec 2 := w.extractLsb' 30 2

/-- `VALUE(v)` (30_encoding.md R69). -/
def valueWord (v : BitVec 18) : RspWord := 0b00#2 ++ 0#12 ++ v

/-- `DESC(t, d)` (30_encoding.md R70). -/
def descWord (t d : BitVec 8) : RspWord := 0b01#2 ++ 0#14 ++ t ++ d

/-- `END` (30_encoding.md R71). -/
def endWord : RspWord := 0b10#2 ++ 0#30

/-- `ERR(k, info)` (30_encoding.md R72). -/
def errWord (k : BitVec 3) (info : BitVec 16) : RspWord := 0b11#2 ++ 0#3 ++ k ++ 0#8 ++ info

/-- The error taxonomy: the four kinds of `ParameterError` and `IllegalCommand` (60_exceptions.md R150).
`unknownMode` and `illegalCharacter` keep the numbering whole and are never raised (R152). -/
inductive ErrorKind where
  | unknownErrorLevel | unknownMode | unknownVersion | illegalCharacter | illegalCommand
deriving DecidableEq, Repr

/-- The code `k` of a kind (60_exceptions.md R151). -/
def errorCode : ErrorKind → BitVec 3
  | .unknownErrorLevel => 0#3
  | .unknownMode => 1#3
  | .unknownVersion => 2#3
  | .illegalCharacter => 3#3
  | .illegalCommand => 4#3

/-- The kinds a BCH-BDU command can raise (60_exceptions.md R151, R152). -/
def errorRaised : ErrorKind → Bool
  | .unknownErrorLevel => true
  | .unknownMode => false
  | .unknownVersion => true
  | .illegalCharacter => false
  | .illegalCommand => true

end Sys2Proof.Machine
end

