-- ==== Sys2Proof/Machine/Ops.lean ====
section
/-! DEFINITION. The named operations over the table and the registers: reading and populating the
table, answering with one word, raising an error (the unit's only exception), delivering, reset. -/

namespace Sys2Proof.Machine

/-- `TableRead(a)`: always succeeds, no side effect (20_memory.md R42). -/
def Memory.read : Memory → TblAddr → TblWord
  | [], _ => unlistedWord
  | (k, w) :: rest, a => if k = a.toNat then w else Memory.read rest a

/-- The environment populates one word of the table before reset is released (20_memory.md R53,
70_reset_and_hazards.md R182). No step calls it: the unit never writes the table (20_memory.md R41). -/
def Memory.write : Memory → TblAddr → TblWord → Memory
  | [], a, w => if w = unlistedWord then [] else [(a.toNat, w)]
  | (k, x) :: rest, a, w =>
    if a.toNat < k then
      if w = unlistedWord then (k, x) :: rest else (a.toNat, w) :: (k, x) :: rest
    else if a.toNat = k then
      if w = unlistedWord then rest else (k, w) :: rest
    else (k, x) :: Memory.write rest a w

/-- The one canonical form of a table: addresses in the space and strictly rising, no entry equal to
what an unlisted word reads as. -/
def Memory.wf : Memory → Bool
  | [] => true
  | (k, w) :: rest =>
    decide (k < 4096) && decide (w ≠ unlistedWord) && rest.all (fun c => decide (k < c.1))
      && Memory.wf rest

/-- The last words of a command: `w` is put in `rw` and one word remains to be delivered. -/
def State.respond (w : RspWord) (s : State) : State := { s with rw := w, st := .one }

/-- `raise Kind(info)`: `rw <- ERR(k, info)`, `st <- ONE`, and nothing else; nothing is saved
(60_exceptions.md R154). -/
def State.raise (kind : ErrorKind) (info : BitVec 16) (s : State) : State :=
  s.respond (errWord (errorCode kind) info)

/-- `send w`: the word is transferred on the response channel (00_scope.md R10). -/
def State.send (w : RspWord) (s : State) : State := { s with sent := s.sent ++ [w] }

/-- `DELIVER`: `send rw`, `st <- IDLE`, no other register (10_state.md R28). It is also the only
return from an error (60_exceptions.md R159). -/
def State.deliver (s : State) : State := { s.send s.rw with st := .idle }

/-- A rising edge with `rst = 1`: `st <- IDLE`, every other register unspecified, whatever state the
unit was in; no word is transferred (10_state.md R29; 70_reset_and_hazards.md R180, R181). The
unspecified contents are free values. -/
def State.applyReset (s : State) : State :=
  { s with
    st := .idle
    rw := Config.freeBits 32 s.fresh
    ver := Config.freeBits 8 (s.fresh + 1)
    lvl := Config.freeBits 2 (s.fresh + 2)
    tidx := Config.freeBits 2 (s.fresh + 3)
    rep := Config.freeBits 8 (s.fresh + 4)
    tc := Config.freeBits 8 (s.fresh + 5)
    dc := Config.freeBits 8 (s.fresh + 6)
    lastf := (Config.freeBits 1 (s.fresh + 7)).getLsbD 0
    fresh := s.fresh + 8 }

/-- The clock moves past the coming edge. -/
def State.tick (s : State) : State := { s with edges := s.edges.tail }

/-- The requester's word is transferred; the words after it remain to be offered (20_memory.md R45). -/
def State.takeCommand (s : State) : State := { s with offered := s.offered.tail }

/-- The requester offers `c` at the next edge to an idle unit, before anything else it offers. -/
def State.placeCommand (c : CmdWord) (s : State) : State :=
  { s with st := .idle, offered := c :: s.offered, edges := Edge.ready :: s.edges }

end Sys2Proof.Machine
end

