-- ==== Sys2Proof/Machine/Bch.lean ====
section
/-! DEFINITION. The BCH family: the shared algorithm (41_bch.md R121, R123) and the meanings of `FMT`
(R126) and `VER` (R127). -/

namespace Sys2Proof.Machine

/-- The division loop of 41_bch.md R121, at most `n` passes: the shift amount is recomputed from
`bitlen(r)` at every pass. -/
def bchLoop (g : Nat) : Nat → Nat → Nat
  | 0, r => r
  | n + 1, r =>
    if bitlen g ≤ bitlen r then bchLoop g n (r ^^^ (g <<< (bitlen r - bitlen g))) else r

/-- `bch_rem(d, G)` (41_bch.md R121). Each pass lowers `bitlen(r)` (R122), so `bitlen(d)` passes are
enough for every `G != 0` (DEDUCED, safe; log 19). -/
def bchRem (d g : Nat) : Nat := bchLoop g (bitlen d) d

/-- `bch_encode(data, G, mask)`, the one function both operations use (41_bch.md R123). -/
def bchEncode (data g mask : Nat) : Nat :=
  let d := data <<< (bitlen g - 1)
  (d ||| bchRem d g) ^^^ mask

/-- The format information of `data`, zero-extended to the 18-bit `VALUE` field (41_bch.md R126;
30_encoding.md R69). -/
def fmtValue (c : Config) (data : BitVec 5) : BitVec 18 :=
  BitVec.ofNat 18 (bchEncode data.toNat c.g15 c.fmtMask)

/-- The version information of `data`: no mask (41_bch.md R127). -/
def verValue (c : Config) (data : BitVec 6) : BitVec 18 :=
  BitVec.ofNat 18 (bchEncode data.toNat c.g18 0)

/-- `FMT data`: step `ACCEPT` of 41_bch.md R126, one atomic step. -/
def execFmt (data : BitVec 5) (s : State) : Host.Outcome State Fault Refusal :=
  .next (s.respond (valueWord (fmtValue s.cfg data)))

/-- `VER data`: step `ACCEPT` of 41_bch.md R127, one atomic step. -/
def execVer (data : BitVec 6) (s : State) : Host.Outcome State Fault Refusal :=
  .next (s.respond (valueWord (verValue s.cfg data)))

end Sys2Proof.Machine
end

