-- ==== Sys2Proof/Machine/Unpack.lean ====
section
/-! DEFINITION. The block-layout family: the meaning of `UNPACK` (40_block_unpack.md R92) and the two
steps that carry its sequence on, `EMIT` (R94) and `ADVANCE` (R95). -/

namespace Sys2Proof.Machine

/-- `load(w, i)` (40_block_unpack.md R93). -/
def State.load (w : TblWord) (i : BitVec 2) (s : State) : State :=
  { s with
    tidx := i
    rep := (tripleOf w).rc
    tc := (tripleOf w).tc
    dc := (tripleOf w).dc
    lastf := lastFlag s.cfg.maxTriples w i }

/-- `ver <- version; lvl <- level[1:0]; st <- SEQ` (40_block_unpack.md R92). -/
def State.startSeq (version : BitVec 8) (lvl : BitVec 2) (s : State) : State :=
  { s with ver := version, lvl := lvl, st := .seq }

/-- `UNPACK version, level`: step `ACCEPT` of 40_block_unpack.md R92. The level is tested before the
table is read (60_exceptions.md R153, R155, R157). -/
def execUnpack (version : BitVec 8) (level : BitVec 3) (s : State) :
    Host.Outcome State Fault Refusal :=
  if levelInvalid level then .next (s.raise .unknownErrorLevel (level.setWidth 16))
  else
    let w := s.table.read (tblAddr version (rowIndex level) 0#2)
    if presentMark w then .next ((s.startSeq version (rowIndex level)).load w 0#2)
    else .next (s.raise .unknownVersion (version.setWidth 16))

/-- `EMIT`: `send DESC(tc, dc)`, `rep <- rep - 1` (40_block_unpack.md R94). -/
def State.emit (s : State) : State :=
  { s.send (descWord s.tc s.dc) with rep := s.rep - 1#8 }

/-- `ADVANCE`: after the last triple `rw <- END`, `st <- ONE`; else load the next one
(40_block_unpack.md R95). -/
def State.advance (s : State) : State :=
  if s.lastf then s.respond endWord
  else s.load (s.table.read (tblAddr s.ver s.lvl (s.tidx + 1#2))) (s.tidx + 1#2)

end Sys2Proof.Machine
end

