-- ==== Sys2Proof/Machine/Dispatch.lean ====
section
/-! DEFINITION. What each operation does when it is accepted: one arm per constructor of `Instr`. -/

namespace Sys2Proof.Machine

/-- The effect of step `ACCEPT` on a decoded command (10_state.md R27). It is taken in `st = IDLE` only
(log 16). -/
def exec (i : Instr) (s : State) : Host.Outcome State Fault Refusal :=
  match i with
  | .unpack version level => Sys2Proof.Machine.execUnpack version level s
  | .fmt data => Sys2Proof.Machine.execFmt data s
  | .ver data => Sys2Proof.Machine.execVer data s

end Sys2Proof.Machine
end

