-- ==== Sys2Proof/WellFormed.lean ====
section
/-! DEFINITION. What is well formed: a configuration (00_scope.md R7, R8), a command word
(30_encoding.md R67), an instruction (30_encoding.md R65). -/

namespace Sys2Proof

/-- The constraints on the constants: `bitlen(G15) = FMT_SHIFT + 1`, `bitlen(G18) = VER_SHIFT + 1`
(00_scope.md R7; 41_bch.md R124), `FMT_MASK < 2^FMT_RW` (00_scope.md R8). -/
def Config.constantsWf (c : Config) : Bool :=
  decide (Machine.bitlen c.g15 = c.fmtShift + 1) && decide (Machine.bitlen c.g18 = c.verShift + 1)
    && decide (c.fmtMask < 2 ^ c.fmtRw)

/-- A configuration is well formed when its constants are, and its layout parameters are those the
words of spec/ are drawn for: `FMT_SHIFT = 10` and `VER_SHIFT = 12` are 00_scope.md R7's own, the
others are the bit positions of the encodings (log 23). -/
def Config.wf (c : Config) : Bool := c.constantsWf && decide (c.toLayout = Layout.decided)

/-- The illegal command words, by the ranges of 30_encoding.md R67. -/
def illegalWord (c : CmdWord) : Bool :=
  let n := c.toNat
  decide (0x0800 ≤ n ∧ n ≤ 0x3FFF) || decide (0x4020 ≤ n ∧ n ≤ 0x7FFF)
    || decide (0x8040 ≤ n ∧ n ≤ 0xBFFF) || decide (0xC000 ≤ n ∧ n ≤ 0xFFFF)

/-- A command word is well formed when it is not illegal (30_encoding.md R67). -/
def wellFormedWord (c : CmdWord) : Bool := !illegalWord c

/-- The operands of an instruction, as numbers, lie in the ranges 30_encoding.md R65 gives. The
operand types are exactly as wide as the fields, so every instruction passes (log 22). -/
def Instr.WellFormed : Instr → Bool
  | .unpack version level => decide (version.toNat ≤ 255) && decide (level.toNat ≤ 7)
  | .fmt data => decide (data.toNat ≤ 31)
  | .ver data => decide (data.toNat ≤ 63)

end Sys2Proof
end

