-- ==== Sys2Proof/Machine/Clock.lean ====
section
/-! DEFINITION. One rising edge of `clk` (10_state.md R27): which of the four steps is taken. -/

namespace Sys2Proof.Machine

/-- `ACCEPT(c)`: the decoded operation's effect, or `IllegalCommand` with the whole word
(10_state.md R27; 60_exceptions.md R156). -/
def accept (c : CmdWord) (s : State) : Host.Outcome State Fault Refusal :=
  match decode c with
  | .instr i => exec i s
  | .illegal w => .next (s.raise .illegalCommand w)

/-- One rising edge at which the pins are `e`: reset (10_state.md R29), else the one step whose
enabling condition and handshake both hold, else no register changes (R27). -/
def clockEdge (e : Edge) (s : State) : Host.Outcome State Fault Refusal :=
  if e.rst then .next s.applyReset
  else
    match s.st with
    | .idle =>
      match e.offer, s.offered with
      | true, c :: _ => accept c s.takeCommand
      | _, _ => .next s
    | .one => if e.rspReady then .next s.deliver else .next s
    | .seq =>
      if s.rep = 0#8 then .next s.advance
      else if e.rspReady then .next s.emit
      else .next s

/-- The unit at its coming edge; with constants that break 00_scope.md R7 or R8 it is refused, not run
(41_bch.md R124). -/
def nextEdge (s : State) : Host.Outcome State Fault Refusal :=
  if s.cfg.wf then clockEdge s.edge s.tick else .refused .illFormedConfig

end Sys2Proof.Machine
end

