-- ==== Sys2Proof/Machine/Step.lean ====
section
/-! DEFINITION. One step of the machine: one rising edge of `clk` (10_state.md R27; log 13). -/

namespace Sys2Proof.Machine

/-- One step: the coming rising edge of `clk`. -/
def step (s : State) : Host.Outcome State Fault Refusal := nextEdge s

/-- `s` with the command word whose low `nbits` bits are `w` (zero above) offered at the next edge to
an idle unit (00_scope.md R5: the unit fetches nothing, a program is the words the requester
offers; log 11). -/
def State.withFetchWord (s : State) (nbits w : Nat) : State :=
  s.placeCommand (BitVec.ofNat 16 (w % 2 ^ nbits))

end Sys2Proof.Machine
end

