-- ==== Sys2Proof/Machine/Ports.lean ====
section
/-! DEFINITION. The word-wide ports as functions of the state (10_state.md R33), and which table word
a step uses (40_block_unpack.md R100). `none` is R33's 'unspecified': no party may use the port then
(93_implementation_defined.md U8). DESIGN CHOICE, safe (log 14). -/

namespace Sys2Proof.Machine

/-- `cmd`, while the requester has a word to offer. -/
def State.cmd (s : State) : Option CmdWord := s.offered.head?

/-- `rsp` (10_state.md R33). -/
def State.rsp (s : State) : Option RspWord :=
  match s.st with
  | .idle => none
  | .one => some s.rw
  | .seq => if s.rep = 0#8 then none else some (descWord s.tc s.dc)

/-- The address `ADVANCE` reads: `{ver, lvl, tidx + 1}` while `st == SEQ`, `rep == 0`, `lastf == 0`. -/
def State.advanceAddr (s : State) : Option TblAddr :=
  if s.st = .seq ∧ s.rep = 0#8 ∧ s.lastf = false then some (tblAddr s.ver s.lvl (s.tidx + 1#2))
  else none

/-- `tbl_addr` (10_state.md R33): `{cmd[7:0], cmd[9:8], 0b00}` while an `UNPACK` command is being
accepted, whatever its level (log 21). -/
def State.tblPort (s : State) : Option TblAddr :=
  match s.cmdTransfer, s.cmd.map decode with
  | true, some (.instr (.unpack version level)) => some (tblAddr version (rowIndex level) 0#2)
  | _, _ => s.advanceAddr

/-- The table word the step at the coming edge uses: none while `rst = 1`, none for an invalid level
(40_block_unpack.md R92, R100). -/
def State.tableReadAt (s : State) : Option TblAddr :=
  if s.edge.rst then none
  else
    match s.cmdTransfer, s.cmd.map decode with
    | true, some (.instr (.unpack version level)) =>
      if levelInvalid level then none else some (tblAddr version (rowIndex level) 0#2)
    | _, _ => s.advanceAddr

end Sys2Proof.Machine
end

