-- ==== Sys2Proof/Machine/Reference.lean ====
section
/-! DEFINITION. The response of each command as one list of words: a function of the command word, the
table and the constants alone (30_encoding.md R78; 40_block_unpack.md R91; 10_state.md R26). The
steps of Machine/Clock.lean produce it one word at a time (40_block_unpack.md R103). -/

namespace Sys2Proof.Machine

/-- `expand`: table order, then repeat order (40_block_unpack.md R90). -/
def expand (triples : List Triple) : List (BitVec 8 × BitVec 8) :=
  (triples.map fun t => List.replicate t.rc.toNat (t.tc, t.dc)).flatten

/-- The triples of the words with the given indices, up to and with the first that is marked `last`. -/
def triplesFrom (table : Memory) (version : BitVec 8) (lvl : BitVec 2) :
    List (BitVec 2) → List Triple
  | [] => []
  | i :: is =>
    let w := table.read (tblAddr version lvl i)
    tripleOf w :: (if lastMark w then [] else triplesFrom table version lvl is)

/-- The indices of the `MAX_TRIPLES` words of an entry, 0 to 3 (20_memory.md R43, R44). -/
def tripleIndices (maxTriples : Nat) : List (BitVec 2) :=
  (List.range maxTriples).map (BitVec.ofNat 2)

/-- `entry(version, lvl)` (20_memory.md R44). -/
def entry (c : Config) (table : Memory) (version : BitVec 8) (lvl : BitVec 2) :
    Option (List Triple) :=
  if presentMark (table.read (tblAddr version lvl 0#2)) then
    some (triplesFrom table version lvl (tripleIndices c.maxTriples))
  else none

/-- The `DESC` words of a list of triples. -/
def descWords (triples : List Triple) : List RspWord :=
  (expand triples).map fun e => descWord e.1 e.2

/-- The whole response of `UNPACK` (40_block_unpack.md R91). -/
def unpackResponse (c : Config) (table : Memory) (version : BitVec 8) (level : BitVec 3) :
    List RspWord :=
  match levelOfField level with
  | none => [errWord (errorCode .unknownErrorLevel) (level.setWidth 16)]
  | some l =>
    match entry c table version l.row with
    | none => [errWord (errorCode .unknownVersion) (version.setWidth 16)]
    | some triples => descWords triples ++ [endWord]

/-- The whole response of a command word (30_encoding.md R78). -/
def response (c : Config) (table : Memory) (word : CmdWord) : List RspWord :=
  match decode word with
  | .instr (.unpack version level) => unpackResponse c table version level
  | .instr (.fmt data) => [valueWord (fmtValue c data)]
  | .instr (.ver data) => [valueWord (verValue c data)]
  | .illegal w => [errWord (errorCode .illegalCommand) w]

/-- The observable result of offering `words` in order (70_reset_and_hazards.md R189). -/
def responses (c : Config) (table : Memory) (words : List CmdWord) : List RspWord :=
  words.flatMap (response c table)

/-- The words of the current command still to be sent (40_block_unpack.md R103). -/
def State.pending (s : State) : List RspWord :=
  match s.st with
  | .idle => []
  | .one => [s.rw]
  | .seq =>
    List.replicate s.rep.toNat (descWord s.tc s.dc)
      ++ (if s.lastf then [] else
            descWords (triplesFrom s.table s.ver s.lvl
              ((tripleIndices s.cfg.maxTriples).drop (s.tidx.toNat + 1))))
      ++ [endWord]

/-- Everything the unit has sent and owes: the words sent, the rest of the current response, the
responses of the words still offered. -/
def State.account (s : State) : List RspWord :=
  s.sent ++ s.pending ++ responses s.cfg s.table s.offered

end Sys2Proof.Machine
end

