-- ==== Sys2Proof/Safety.lean ====
section
/-! DEFINITION. The terms claims are stated in: the end of a run, the invariant of 10_state.md R32, the
states a client cannot tell apart (R26, R30), GF(2) multiples (41_bch.md R121). -/

namespace Sys2Proof.Machine

/-- `k` steps, stopping at a refusal: `Host.Core.run` of this machine, in its own types. -/
def runSteps : Nat → State → Host.Outcome State Fault Refusal
  | 0, s => .next s
  | k + 1, s =>
    match step s with
    | .next t => runSteps k t
    | .fault r => .fault r
    | .refused r => .refused r

/-- The run has ended: everything offered has been accepted and the unit is idle, so every response
word has been transferred (70_reset_and_hazards.md R189). -/
def State.RunEnded (s : State) : Prop := s.st = .idle ∧ s.offered = []

/-- No scheduled edge resets the unit. -/
def State.NoReset (s : State) : Prop := ∀ e ∈ s.edges, e.rst = false

/-- The word `c` is accepted at the coming edge: the unit is idle, there is no reset, and the requester
offers `c` (10_state.md R27; 20_memory.md R45). -/
structure State.Accepts (s : State) (c : CmdWord) : Prop where
  idle : s.st = .idle
  noReset : s.edge.rst = false
  offer : s.edge.offer = true
  word : s.offered.head? = some c

/-- A well-formed final word: a `VALUE`, `END`, or `ERR` of a kind the unit raises (10_state.md R32 (c);
60_exceptions.md R151). -/
def FinalWord (w : RspWord) : Prop :=
  (∃ v, w = valueWord v) ∨ w = endWord ∨
    ∃ kind info, errorRaised kind = true ∧ w = errWord (errorCode kind) info

/-- 10_state.md R32 (b): the sequencer registers match the table word they were loaded from, no earlier
word of the entry is its last, and the entry is present. -/
structure State.SeqMatches (s : State) : Prop where
  present : presentMark (s.table.read (tblAddr s.ver s.lvl 0#2)) = true
  earlier : ∀ i : BitVec 2, i < s.tidx → lastMark (s.table.read (tblAddr s.ver s.lvl i)) = false
  rep : s.rep.toNat ≤ (tripleOf (s.table.read (tblAddr s.ver s.lvl s.tidx))).rc.toNat
  tc : s.tc = (tripleOf (s.table.read (tblAddr s.ver s.lvl s.tidx))).tc
  dc : s.dc = (tripleOf (s.table.read (tblAddr s.ver s.lvl s.tidx))).dc
  lastf : s.lastf = true ↔
    lastMark (s.table.read (tblAddr s.ver s.lvl s.tidx)) = true ∨ s.tidx = 3#2

/-- The invariant of the machine (10_state.md R32), with the constants' constraints (00_scope.md R7, R8)
and the table's canonical form. -/
structure State.Inv (s : State) : Prop where
  cfg : s.cfg.wf = true
  table : Memory.wf s.table = true
  one : s.st = .one → FinalWord s.rw
  seq : s.st = .seq → s.SeqMatches

/-- Two states that differ in dead registers only: those of 10_state.md R23 and R24 outside their live
phase, and the counter of free values (R26, R30). -/
structure State.LiveEq (s t : State) : Prop where
  st : s.st = t.st
  cfg : s.cfg = t.cfg
  table : s.table = t.table
  offered : s.offered = t.offered
  sent : s.sent = t.sent
  edges : s.edges = t.edges
  one : s.st = .one → s.rw = t.rw
  seq : s.st = .seq →
    s.ver = t.ver ∧ s.lvl = t.lvl ∧ s.tidx = t.tidx ∧ s.rep = t.rep ∧ s.tc = t.tc ∧ s.dc = t.dc ∧
      s.lastf = t.lastf

/-- `x` is a multiple of the polynomial `g` over GF(2): the XOR of the shifts of `g` by `ks`
(41_bch.md R121, R128). -/
def IsMultiple (g x : Nat) : Prop := ∃ ks : List Nat, x = (ks.map (g <<< ·)).foldr (· ^^^ ·) 0

/-- How many of the low `n` bits of two numbers differ (41_bch.md R129 (d)). -/
def bitDistance (n a b : Nat) : Nat := ((List.range n).filter fun i => (a ^^^ b).testBit i).length

end Sys2Proof.Machine
end

