-- ==== Sys2Proof/Certificates/Slice0/Obligations.lean ====
section
/-! DEFINITION. The statements about BCH-BDU, from the numbered rules of spec/. -/

open Sys2Proof Sys2Proof.Machine

-- ==== Reset, the clock edge, the ports ====

/-- 10_state.md R29: a rising edge with `rst = 1` leaves `st = IDLE` and the parameters as they were;
both handshake outputs are 0 during it, and once `rst` falls `cmd_ready = 1`, `rsp_valid = 0`.
Of the registers R29 leaves unspecified it says nothing. -/
def Obligations.ResetEdgeLeavesIdle : Prop :=
  ∀ s : State, s.cfg.wf = true → s.edge.rst = true →
    s.cmdReady = false ∧ s.rspValid = false ∧
    ∃ t, step s = .next t ∧ t.st = .idle ∧ t.table = s.table ∧ t.cfg = s.cfg ∧
      t.sent = s.sent ∧ t.offered = s.offered ∧
      (t.edge.rst = false → t.cmdReady = true ∧ t.rspValid = false)

/-- 10_state.md R32: the invariant holds after reset. It rests on the model's reset table, which lists
nothing (log 2), and on the constants of 00_scope.md R6 (log 3). -/
def Obligations.ResetMeetsInvariant : Prop :=
  State.reset.Inv ∧ State.reset.st = .idle ∧ State.reset.cmdReady = true ∧
    State.reset.rspValid = false

/-- 70_reset_and_hazards.md R181: a reset in mid-command abandons the command. The words delivered stay
delivered, the word on offer is withdrawn, and whatever runs afterwards with no further reset, nothing is sent but a first part of
the responses of the commands still offered. -/
def Obligations.ResetAbandonsTheCommand : Prop :=
  ∀ s : State, s.cfg.wf = true → s.edge.rst = true →
    ∃ t, step s = .next t ∧ t.sent = s.sent ∧ t.offered = s.offered ∧ t.st = .idle ∧
      t.rspValid = false ∧
      (t.NoReset → ∀ (k : Nat) (u : State), runSteps k t = .next u →
        u.sent <+: s.sent ++ responses s.cfg s.table s.offered)

/-- 10_state.md R33: the outputs as functions of the state. -/
def Obligations.OutputsAreFunctionsOfState : Prop :=
  ∀ s : State,
    (s.cmdReady = true ↔ s.st = .idle ∧ s.edge.rst = false) ∧
    (s.rspValid = true ↔
      (s.st = .one ∨ (s.st = .seq ∧ s.rep ≠ 0#8)) ∧ s.edge.rst = false) ∧
    (s.st = .one → s.rsp = some s.rw) ∧
    (s.st = .seq → s.rep ≠ 0#8 → s.rsp = some (descWord s.tc s.dc)) ∧
    (∀ c version level, s.Accepts c → decode c = .instr (.unpack version level) →
      s.tblPort = some (c.extractLsb' 0 8 ++ c.extractLsb' 8 2 ++ 0#2)) ∧
    (s.st = .seq → s.rep = 0#8 → s.lastf = false →
      s.tblPort = some (s.ver ++ s.lvl ++ (s.tidx + 1#2)))

/-- 10_state.md R27: at a rising edge the one step whose enabling condition and handshake both hold is
taken; if none holds, no register changes. -/
def Obligations.EdgeTakesTheEnabledStep : Prop :=
  ∀ s : State, s.cfg.wf = true →
    (s.edge.rst = true → step s = .next s.tick.applyReset) ∧
    (∀ c, s.Accepts c → step s = accept c s.tick.takeCommand) ∧
    (s.edge.rst = false → s.st = .seq → s.rep ≠ 0#8 → s.edge.rspReady = true →
      step s = .next s.tick.emit) ∧
    (s.edge.rst = false → s.st = .seq → s.rep = 0#8 → step s = .next s.tick.advance) ∧
    (s.edge.rst = false → s.st = .one → s.edge.rspReady = true → step s = .next s.tick.deliver) ∧
    (s.edge.rst = false → s.cmdTransfer = false → s.rspTransfer = false →
      ¬ (s.st = .seq ∧ s.rep = 0#8) → step s = .next { s with edges := s.edges.tail })

/-- 20_memory.md R45: a command word leaves the requester at an edge exactly when `cmd_valid` and
`cmd_ready` are both 1; otherwise every word offered still waits. -/
def Obligations.CommandMovesOnlyAtHandshake : Prop :=
  ∀ s t : State, step s = .next t →
    (s.cmdTransfer = true → ∃ c, s.offered = c :: t.offered) ∧
    (s.cmdTransfer = false → t.offered = s.offered)

/-- 20_memory.md R46: a response word is sent at an edge exactly when `rsp_valid` and `rsp_ready` are both
1, and it is the word on `rsp`; a word offered and not accepted stays on `rsp` unchanged, and stays
valid unless the unit is reset. -/
def Obligations.ResponseMovesOnlyAtHandshake : Prop :=
  ∀ s t : State, step s = .next t →
    (s.rspTransfer = true → ∃ w, s.rsp = some w ∧ t.sent = s.sent ++ [w]) ∧
    (s.rspTransfer = false → t.sent = s.sent) ∧
    (s.rspValid = true → s.edge.rspReady = false →
      t.rsp = s.rsp ∧ t.st = s.st ∧ (t.edge.rst = false → t.rspValid = true))

/-- 70_reset_and_hazards.md R185: while a response word is offered and the consumer is not ready, the unit
waits without limit: however many edges pass, nothing changes but the schedule of edges. -/
def Obligations.UnitWaitsForTheConsumer : Prop :=
  ∀ (n : Nat) (s : State), s.cfg.wf = true →
    (s.st = .one ∨ (s.st = .seq ∧ s.rep ≠ 0#8)) → n ≤ s.edges.length →
    (∀ e ∈ s.edges.take n, e.rst = false ∧ e.rspReady = false) →
    runSteps n s = .next { s with edges := s.edges.drop n }

/-- A unit runs exactly when its configuration is well formed, and is refused otherwise. The constraints
on the constants are 00_scope.md R7 and R8. That a step is refused for constants that break them is 41_bch.md
R124 ('should be refused as ill-formed, not run') and 93_implementation_defined.md U14 as the model reads
them (log 4, DEDUCED), and that it is refused for shifts, widths or a `MAX_TRIPLES` other than 00_scope.md
R6's is the model's reading too (log 23, DEDUCED). The decided constants, which the spec marks general
knowledge (log 3, UNVERIFIED), meet the constraints. -/
def Obligations.OnlyWellFormedConstantsRun : Prop :=
  (∀ s : State, (∃ t, step s = .next t) ↔
    bitlen s.cfg.g15 = 11 ∧ bitlen s.cfg.g18 = 13 ∧ s.cfg.fmtMask < 2 ^ 15 ∧
      s.cfg.toLayout = Layout.decided) ∧
  (∀ s : State, ¬ (bitlen s.cfg.g15 = 11 ∧ bitlen s.cfg.g18 = 13 ∧ s.cfg.fmtMask < 2 ^ 15 ∧
      s.cfg.toLayout = Layout.decided) →
    step s = .refused .illFormedConfig) ∧
  bitlen 0x537 = 11 ∧ bitlen 0x1F25 = 13 ∧ 0x5412 < 2 ^ 15 ∧
  Config.decided = { g15 := 0x537, g18 := 0x1F25, fmtMask := 0x5412 } ∧
  Layout.decided =
    { fmtShift := 10, verShift := 12, fmtDw := 5, fmtRw := 15, verDw := 6, verRw := 18, maxTriples := 4,
      rcW := 8, tcW := 8, dcW := 8, verW := 8, lvlW := 3, cmdW := 16, rspW := 32, twW := 32 }

-- ==== Decoding and encoding ====

/-- A step runs the decoded instruction: when the word accepted at the coming edge decodes to `i`, the step
is `exec i` at the state with that word taken and the clock past the edge (10_state.md R27). -/
def Obligations.StepRunsTheDecodedInstruction : Prop :=
  ∀ (s : State) (c : CmdWord) (i : Instr), s.cfg.wf = true → s.Accepts c →
    decode c = .instr i → i.WellFormed = true →
    step s = exec i { s with offered := s.offered.tail, edges := s.edges.tail }

/-- The word placed for the next edge is the one that runs (log 11). -/
def Obligations.PlacedWordRunsNext : Prop :=
  ∀ (s : State) (nbits w : Nat) (i : Instr), s.cfg.wf = true → decodeTableWord nbits w = some i →
    step (s.withFetchWord nbits w) = exec i { s with st := .idle }

/-- Words written out from 30_encoding.md R62, R63, R64 decode to the operations they stand for
(95_test_vectors.md section 2.7). -/
def Obligations.SampleWordsDecode : Prop :=
  decode 0b0000001100101000#16 = .instr (.unpack 40#8 3#3) ∧
  decode 0b0000011111111111#16 = .instr (.unpack 255#8 7#3) ∧
  decode 0b0100000000011111#16 = .instr (.fmt 31#5) ∧
  decode 0b1000000000111111#16 = .instr (.ver 63#6) ∧
  decode 0b0100000100000101#16 = .illegal 0x4105#16 ∧
  decode 0b1100000000000000#16 = .illegal 0xC000#16

/-- Decoding an encoded instruction gives it back, every operand at every value (30_encoding.md R62 to R65). -/
def Obligations.DecodeInvertsEncode : Prop :=
  ∀ i : Instr, i.WellFormed = true → decode (encode i) = .instr i

/-- Every word that decodes to an operation is that operation's encoding: no bit of a word is dropped
(30_encoding.md R62, R63, R64, R77). -/
def Obligations.EncodeInvertsDecode : Prop :=
  ∀ (c : CmdWord) (i : Instr), decode c = .instr i → encode i = c

/-- 30_encoding.md R77: a word decodes to an operation of a row exactly when its bits under the row's mask
are the row's, the patterns are disjoint, and every other word is illegal. -/
def Obligations.DecodeFollowsTheOpcodeTable : Prop :=
  (∀ (c : CmdWord) (r : OpcodeRow), r ∈ opcodeTable →
    (c &&& r.mask = r.bits ↔ ∃ i, decode c = .instr i ∧ rowOf i = r)) ∧
  (∀ c : CmdWord, decode c = .illegal c ↔ ∀ r ∈ opcodeTable, c &&& r.mask ≠ r.bits) ∧
  opcodeTable.Pairwise fun p q => ∀ c : CmdWord, ¬ (c &&& p.mask = p.bits ∧ c &&& q.mask = q.bits)

/-- 30_encoding.md R67: the illegal words are the ranges the rule lists, and such a word is accepted like
any other and answered with `IllegalCommand`, `0xC4000000 + c`. -/
def Obligations.IllegalRangesAreAnswered : Prop :=
  ∀ (s : State) (c : CmdWord), s.cfg.wf = true → s.Accepts c →
    ((0x0800 ≤ c.toNat ∧ c.toNat ≤ 0x3FFF) ∨ (0x4020 ≤ c.toNat ∧ c.toNat ≤ 0x7FFF) ∨
      (0x8040 ≤ c.toNat ∧ c.toNat ≤ 0xBFFF) ∨ 0xC000 ≤ c.toNat) →
    step s = .next { s with
      rw := BitVec.ofNat 32 (0xC4000000 + c.toNat), st := .one,
      offered := s.offered.tail, edges := s.edges.tail }

/-- 30_encoding.md R65: operands are the unsigned fields of the word, and a datum too wide for its field is
an illegal word, not a wider datum. -/
def Obligations.OperandsAreTheFields : Prop :=
  (∀ c version level, decode c = .instr (.unpack version level) →
    version.toNat = c.toNat % 256 ∧ level.toNat = c.toNat / 256 % 8) ∧
  (∀ c data, decode c = .instr (.fmt data) → data.toNat = c.toNat % 32) ∧
  (∀ c data, decode c = .instr (.ver data) → data.toNat = c.toNat % 64) ∧
  (∀ n : Nat, n < 0x4000 → ((∃ i, decode (BitVec.ofNat 16 (0x4000 + n)) = .instr i) ↔ n < 32)) ∧
  (∀ n : Nat, n < 0x4000 → ((∃ i, decode (BitVec.ofNat 16 (0x8000 + n)) = .instr i) ↔ n < 64))

/-- 30_encoding.md R66: the codes 0..3 name L, M, Q, H, each its own row index; 4..7 name no level. -/
def Obligations.LevelCodes : Prop :=
  (∀ level : BitVec 3, levelOfField level = none ↔ 4 ≤ level.toNat) ∧
  (∀ l : Level, levelOfField l.field = some l ∧ l.field.toNat = l.row.toNat) ∧
  [Level.L, Level.M, Level.Q, Level.H].map (fun l => l.row.toNat) = [0, 1, 2, 3] ∧
  (∀ level : BitVec 3, levelInvalid level = true ↔ levelOfField level = none)

/-- 30_encoding.md R76: the spelled examples assemble to the words given, and `.cmd` to its own word. -/
def Obligations.AssembledExamples : Prop :=
  assemble (.unpack 5#8 .Q) = 0x0205#16 ∧ assemble (.fmt 5#5) = 0x4005#16 ∧
  assemble (.ver 7#6) = 0x8007#16 ∧ assemble (.unpackNumber 1#8 5#3) = 0x0501#16 ∧
  ∀ c, assemble (.cmd c) = c

/-- 30_encoding.md R70, R71, R72 (and R69's word): the response words as numbers, and their kinds (R68). -/
def Obligations.ResponseWordsAsNumbers : Prop :=
  (∀ v : BitVec 18, (valueWord v).toNat = v.toNat ∧ rspKind (valueWord v) = 0b00#2) ∧
  (∀ t d : BitVec 8, (descWord t d).toNat = 0x40000000 + t.toNat * 256 + d.toNat ∧
    rspKind (descWord t d) = 0b01#2) ∧
  (endWord.toNat = 0x80000000 ∧ rspKind endWord = 0b10#2) ∧
  (∀ (k : BitVec 3) (info : BitVec 16),
    (errWord k info).toNat = 0xC0000000 + k.toNat * 2 ^ 24 + info.toNat ∧
    rspKind (errWord k info) = 0b11#2)

-- ==== The table ====

/-- 20_memory.md R43: the word address is `version * 16 + lvl * 4 + tidx`, and versions 0 to 255 fill the
space exactly: every address is that of one (version, lvl, tidx). -/
def Obligations.TableAddressesFillTheSpace : Prop :=
  (∀ (version : BitVec 8) (lvl tidx : BitVec 2),
    (tblAddr version lvl tidx).toNat = version.toNat * 16 + lvl.toNat * 4 + tidx.toNat) ∧
  ∀ a : TblAddr, ∃ version lvl tidx, tblAddr version lvl tidx = a ∧
    ∀ v l i, tblAddr v l i = a → v = version ∧ l = lvl ∧ i = tidx

/-- 30_encoding.md R73: the fields of a table word by their bit positions. -/
def Obligations.TableWordFields : Prop :=
  ∀ w : TblWord,
    (presentMark w = true ↔ w.toNat / 2 ^ 31 = 1) ∧
    (lastMark w = true ↔ w.toNat / 2 ^ 30 % 2 = 1) ∧
    (tripleOf w).rc.toNat = w.toNat / 2 ^ 16 % 256 ∧
    (tripleOf w).tc.toNat = w.toNat / 2 ^ 8 % 256 ∧
    (tripleOf w).dc.toNat = w.toNat % 256 ∧
    ∀ p l t, presentMark (tblWord p l t) = p ∧ lastMark (tblWord p l t) = l ∧
      tripleOf (tblWord p l t) = t

/-- 20_memory.md R41, 00_scope.md R6 (contents OPEN): every contents of the 4096 words is a table in
canonical form, and exactly one. That an unlisted word reads 0 is the model's choice (log 2). -/
def Obligations.EveryTableHasOneForm : Prop :=
  ∀ f : TblAddr → TblWord, ∃ m : Memory, Memory.wf m = true ∧ (∀ a, Memory.read m a = f a) ∧
    ∀ m' : Memory, Memory.wf m' = true → (∀ a, Memory.read m' a = f a) → m' = m

/-- 20_memory.md R44: `entry` is `none` exactly when the first word's `present` is 0, and else the triples
of the words 0 to n, with n the least index marked `last`, or 3 (`MAX_TRIPLES = 4`, 00_scope.md R6). -/
def Obligations.EntryIsTheMarkedTriples : Prop :=
  ∀ (c : Config) (m : Memory) (version : BitVec 8) (lvl : BitVec 2), c.maxTriples = 4 →
    let w : Nat → TblWord := fun i =>
      Memory.read m (BitVec.ofNat 12 (version.toNat * 16 + lvl.toNat * 4 + i))
    (entry c m version lvl = none ↔ presentMark (w 0) = false) ∧
    ∀ triples, entry c m version lvl = some triples →
      ∃ n, n ≤ 3 ∧ (∀ i, i < n → lastMark (w i) = false) ∧ (lastMark (w n) = true ∨ n = 3) ∧
        triples = (List.range (n + 1)).map fun i => tripleOf (w i)

/-- 30_encoding.md R74: two tables that agree on the looked-at bits give every command the same response,
whatever they hold in bits 29:24, in `present` beyond the first word of an entry, in `last` of its
fourth word (`MAX_TRIPLES = 4`, 00_scope.md R6), in the words after its last triple, and beyond the
first word of an absent entry. -/
def Obligations.IgnoredTableBits : Prop :=
  ∀ (c : Config) (m m' : Memory), c.maxTriples = 4 →
    (∀ (version : BitVec 8) (lvl : BitVec 2),
      presentMark (m.read (tblAddr version lvl 0#2)) =
        presentMark (m'.read (tblAddr version lvl 0#2))) →
    (∀ (version : BitVec 8) (lvl i : BitVec 2),
      presentMark (m.read (tblAddr version lvl 0#2)) = true →
      (∀ j, j < i → lastMark (m.read (tblAddr version lvl j)) = false) →
      tripleOf (m.read (tblAddr version lvl i)) = tripleOf (m'.read (tblAddr version lvl i)) ∧
      (i ≠ 3#2 →
        lastMark (m.read (tblAddr version lvl i)) = lastMark (m'.read (tblAddr version lvl i)))) →
    ∀ word, response c m word = response c m' word

/-- 40_block_unpack.md R100: a step uses no table word but the one at `tableReadAt`; in particular none when
it accepts an `UNPACK` with an invalid level, an `FMT`, a `VER` or an illegal word. -/
def Obligations.StepReadsOneTableWord : Prop :=
  (∀ (s : State) (m : Memory), (∀ a, s.tableReadAt = some a → m.read a = s.table.read a) →
    ∀ t, step s = .next t → step { s with table := m } = .next { t with table := m }) ∧
  (∀ (s : State) (c : CmdWord), s.Accepts c →
    (∀ a, s.tableReadAt = some a ↔ ∃ version level, decode c = .instr (.unpack version level) ∧
      level.toNat < 4 ∧ a.toNat = version.toNat * 16 + level.toNat * 4))

/-- 20_memory.md R41, R53, 10_state.md R25: no run writes the table or the constants. -/
def Obligations.NoRunWritesTableOrConstants : Prop :=
  ∀ (k : Nat) (s t : State), runSteps k s = .next t →
    t.table = s.table ∧ t.cfg = s.cfg ∧ ∀ a, t.table.read a = s.table.read a

-- ==== UNPACK ====

/-- 40_block_unpack.md R92 (with R93): what accepting an `UNPACK` does, on every level, version and table.
No other field of the state changes. R93's `i == 3` is for `MAX_TRIPLES = 4` (00_scope.md R6). -/
def Obligations.UnpackAccept : Prop :=
  ∀ (s : State) (version : BitVec 8) (level : BitVec 3),
    let w := s.table.read (BitVec.ofNat 12 (version.toNat * 16 + level.toNat * 4))
    (4 ≤ level.toNat → exec (.unpack version level) s =
      .next { s with rw := BitVec.ofNat 32 (0xC0000000 + level.toNat), st := .one }) ∧
    (level.toNat < 4 → w.toNat < 2 ^ 31 → exec (.unpack version level) s =
      .next { s with rw := BitVec.ofNat 32 (0xC2000000 + version.toNat), st := .one }) ∧
    (s.cfg.maxTriples = 4 → level.toNat < 4 → 2 ^ 31 ≤ w.toNat → exec (.unpack version level) s =
      .next { s with
        st := .seq, ver := version, lvl := BitVec.ofNat 2 level.toNat, tidx := 0#2,
        rep := BitVec.ofNat 8 (w.toNat / 2 ^ 16), tc := BitVec.ofNat 8 (w.toNat / 2 ^ 8),
        dc := BitVec.ofNat 8 w.toNat, lastf := decide (w.toNat / 2 ^ 30 % 2 = 1) })

/-- 60_exceptions.md R153: an `UNPACK` with level 4..7 answers `0xC0000004` to `0xC0000007`, whatever the
version is and whatever the table holds. -/
def Obligations.UnpackUnknownLevel : Prop :=
  ∀ (s : State) (version : BitVec 8) (level : BitVec 3) (m : Memory), 4 ≤ level.toNat →
    exec (.unpack version level) { s with table := m } =
      .next { s with
        table := m, rw := BitVec.ofNat 32 (0xC0000000 + level.toNat), st := .one }

/-- 60_exceptions.md R155: a valid level whose first table word has `present = 0` answers
`0xC2000000 + version`, and only then: the test is the table's answer, not the range of the version. -/
def Obligations.UnpackUnknownVersion : Prop :=
  ∀ (s : State) (version : BitVec 8) (level : BitVec 3), level.toNat < 4 →
    (presentMark (s.table.read (tblAddr version (rowIndex level) 0#2)) = false ↔
      exec (.unpack version level) s =
        .next { s with rw := BitVec.ofNat 32 (0xC2000000 + version.toNat), st := .one })

/-- 40_block_unpack.md R94: `EMIT` sends `DESC(tc, dc)` and lowers `rep` by one, which does not wrap; no
other register changes. -/
def Obligations.EmitStep : Prop :=
  ∀ s : State, s.cfg.wf = true → s.edge.rst = false → s.st = .seq → s.rep ≠ 0#8 →
    s.edge.rspReady = true →
    step s = .next { s with
      rep := BitVec.ofNat 8 (s.rep.toNat - 1),
      sent := s.sent ++ [BitVec.ofNat 32 (0x40000000 + s.tc.toNat * 256 + s.dc.toNat)],
      edges := s.edges.tail }

/-- 40_block_unpack.md R95 (with R93): `ADVANCE` ends the sequence after the last triple, and else loads the
next one. `tidx <= 2` there is R102's bound, kept by the invariant of R32. -/
def Obligations.AdvanceStep : Prop :=
  ∀ s : State, s.cfg.wf = true → s.edge.rst = false → s.st = .seq → s.rep = 0#8 →
    (s.lastf = true →
      step s = .next { s with rw := 0x80000000#32, st := .one, edges := s.edges.tail }) ∧
    (s.lastf = false → s.tidx.toNat ≤ 2 →
      let w := s.table.read (BitVec.ofNat 12 (s.ver.toNat * 16 + s.lvl.toNat * 4 + s.tidx.toNat + 1))
      step s = .next { s with
        tidx := BitVec.ofNat 2 (s.tidx.toNat + 1), rep := BitVec.ofNat 8 (w.toNat / 2 ^ 16),
        tc := BitVec.ofNat 8 (w.toNat / 2 ^ 8), dc := BitVec.ofNat 8 w.toNat,
        lastf := decide (w.toNat / 2 ^ 30 % 2 = 1 ∨ s.tidx.toNat = 2), edges := s.edges.tail })

/-- 10_state.md R28: `DELIVER` sends `rw`, returns to `IDLE` and writes no other register. -/
def Obligations.DeliverStep : Prop :=
  ∀ s : State, s.cfg.wf = true → s.edge.rst = false → s.st = .one → s.edge.rspReady = true →
    step s = .next { s with st := .idle, sent := s.sent ++ [s.rw], edges := s.edges.tail }

/-- 40_block_unpack.md R90, R104: `expand` repeats each triple's descriptor, in table order; the number of
descriptors and the sums of their counts are those of the entry. -/
def Obligations.ExpandRepeatsEachTriple : Prop :=
  (expand [] = []) ∧
  (∀ t ts, expand (t :: ts) = List.replicate t.rc.toNat (t.tc, t.dc) ++ expand ts) ∧
  ∀ ts : List Triple,
    (expand ts).length = (ts.map fun t => t.rc.toNat).sum ∧
    ((expand ts).map fun e => e.1.toNat).sum = (ts.map fun t => t.rc.toNat * t.tc.toNat).sum ∧
    ((expand ts).map fun e => e.2.toNat).sum = (ts.map fun t => t.rc.toNat * t.dc.toNat).sum

/-- 40_block_unpack.md R91, R99: the whole response of an `UNPACK`: an error for an invalid level, an error
for an entry the table does not have, and else the descriptors of the expansion with their counts
as the table holds them, and `END`; an entry whose every repeat count is 0 gives `END` alone. -/
def Obligations.UnpackRespondsWithTheExpansion : Prop :=
  ∀ (c : Config) (m : Memory) (version : BitVec 8) (level : BitVec 3),
    (4 ≤ level.toNat → response c m (encode (.unpack version level)) =
      [BitVec.ofNat 32 (0xC0000000 + level.toNat)]) ∧
    (level.toNat < 4 → entry c m version (rowIndex level) = none →
      response c m (encode (.unpack version level)) =
        [BitVec.ofNat 32 (0xC2000000 + version.toNat)]) ∧
    (∀ triples, level.toNat < 4 → entry c m version (rowIndex level) = some triples →
      response c m (encode (.unpack version level)) =
        (expand triples).map (fun e =>
          BitVec.ofNat 32 (0x40000000 + e.1.toNat * 256 + e.2.toNat)) ++ [0x80000000#32] ∧
      ((∀ t ∈ triples, t.rc = 0#8) →
        response c m (encode (.unpack version level)) = [0x80000000#32])) ∧
    (entry c m 5#8 2#2 = some [⟨2#8, 33#8, 15#8⟩, ⟨2#8, 34#8, 16#8⟩] → response c m 0x0205#16 =
      [0x4000210F#32, 0x4000210F#32, 0x40002210#32, 0x40002210#32, 0x80000000#32])

/-- 40_block_unpack.md R102: `tidx` only grows, by one, and only after a triple that is not the last. -/
def Obligations.TripleIndexOnlyGrows : Prop :=
  ∀ s t : State, s.Inv → step s = .next t → s.st = .seq → t.st = .seq →
    (t.tidx = s.tidx ∧ t.ver = s.ver ∧ t.lvl = s.lvl) ∨
    (t.tidx.toNat = s.tidx.toNat + 1 ∧ s.lastf = false ∧ s.rep = 0#8 ∧ t.ver = s.ver ∧
      t.lvl = s.lvl)

-- ==== FMT and VER ====

/-- 41_bch.md R126: what accepting an `FMT` does, for all constants that meet 00_scope.md R7 and R8: the
15-bit value by the shift of 10, the remainder and the mask; no other field changes; the whole
response is that one word. With the decided constants the result is never 0, and the rule's
corner cases and example hold. -/
def Obligations.FmtAccept : Prop :=
  (∀ (s : State) (data : BitVec 5), s.cfg.wf = true →
    let d := data.toNat <<< 10
    let v := (d ||| bchRem d s.cfg.g15) ^^^ s.cfg.fmtMask
    v < 2 ^ 15 ∧ (encode (.fmt data)).toNat = 0x4000 + data.toNat ∧
    exec (.fmt data) s = .next { s with rw := BitVec.ofNat 32 v, st := .one } ∧
    response s.cfg s.table (encode (.fmt data)) = [BitVec.ofNat 32 v]) ∧
  (∀ data, fmtValue Config.decided data ≠ 0#18) ∧
  fmtValue Config.decided 0#5 = 0x5412#18 ∧ fmtValue Config.decided 31#5 = 0x2BED#18 ∧
  fmtValue Config.decided 5#5 = 0x40CE#18 ∧
  bchLoop 0x537 1 0x7C00 = 0x2F70 ∧ bchLoop 0x537 2 0x7C00 = 0x06C8 ∧
  bchLoop 0x537 3 0x7C00 = 0x03FF ∧ bchRem 0x7C00 0x537 = 0x03FF ∧
  bchLoop 0x537 1 0x1400 = 0x00DC ∧ bchRem 0x1400 0x537 = 0x00DC

/-- 41_bch.md R127: what accepting a `VER` does, for all constants that meet 00_scope.md R7 and R8: the
18-bit value by the shift of 12 and the remainder, with no mask; no other field changes; the whole
response is that one word. With the decided constants the rule's corner cases and example hold. -/
def Obligations.VerAccept : Prop :=
  (∀ (s : State) (data : BitVec 6), s.cfg.wf = true →
    let d := data.toNat <<< 12
    let v := d ||| bchRem d s.cfg.g18
    v < 2 ^ 18 ∧ (encode (.ver data)).toNat = 0x8000 + data.toNat ∧
    exec (.ver data) s = .next { s with rw := BitVec.ofNat 32 v, st := .one } ∧
    response s.cfg s.table (encode (.ver data)) = [BitVec.ofNat 32 v]) ∧
  verValue Config.decided 0#6 = 0#18 ∧ verValue Config.decided 63#6 = 0x3FB85#18 ∧
  verValue Config.decided 1#6 = 0x1F25#18 ∧ verValue Config.decided 7#6 = 0x07C94#18 ∧
  bchLoop 0x1F25 1 0x3F000 = 0x014A0 ∧ bchLoop 0x1F25 2 0x3F000 = 0x00B85 ∧
  bchRem 0x3F000 0x1F25 = 0x00B85 ∧ bchLoop 0x1F25 1 0x7000 = 0x0C94 ∧
  bchRem 0x7000 0x1F25 = 0x0C94

/-- 00_scope.md R11: `bitlen` is the position of the highest set bit plus one, and 0 for 0. -/
def Obligations.BitlenIsHighestBitPlusOne : Prop :=
  bitlen 0 = 0 ∧
  (∀ v : Nat, 0 < v → bitlen v = 1 + Nat.log2 v ∧ v.testBit (bitlen v - 1) = true ∧
    ∀ i, bitlen v ≤ i → v.testBit i = false) ∧
  (bitlen 1 = 1 ∧ bitlen 0x400 = 11 ∧ bitlen 0x537 = 11 ∧ bitlen 0x1F25 = 13 ∧ bitlen 0x7FFF = 15)

/-- 41_bch.md R121: `bch_rem` is the rule's loop, and the remainder of the polynomial division: it differs
from the dividend by a multiple of the generator, is shorter than the generator, and is the only
such number. -/
def Obligations.BchRemIsTheRemainder : Prop :=
  ∀ d g : Nat, g ≠ 0 →
    (bchRem d g =
      if bitlen g ≤ bitlen d then bchRem (d ^^^ (g <<< (bitlen d - bitlen g))) g else d) ∧
    bitlen (bchRem d g) < bitlen g ∧ IsMultiple g (d ^^^ bchRem d g) ∧
    ∀ r, bitlen r < bitlen g → IsMultiple g (d ^^^ r) → r = bchRem d g

/-- 41_bch.md R122: at most `max(0, bitlen(d) - bitlen(G) + 1)` passes are made and more change nothing; the
remainder is below `2^(bitlen(G) - 1)`; a short dividend is its own remainder; `FMT` needs at most
5 passes and `VER` at most 6, and with the decided constants `FMT 24` and `VER 43` need them all. -/
def Obligations.BchLoopTerminates : Prop :=
  (∀ d g n : Nat, g ≠ 0 → bitlen d + 1 - bitlen g ≤ n → bchLoop g n d = bchRem d g) ∧
  (∀ d g : Nat, g ≠ 0 → bchRem d g < 2 ^ (bitlen g - 1)) ∧
  (∀ d g : Nat, bitlen d < bitlen g → bchRem d g = d) ∧
  (∀ c : Config, c.wf = true →
    (∀ data : BitVec 5, bchLoop c.g15 5 (data.toNat <<< 10) = bchRem (data.toNat <<< 10) c.g15 ∧
      bchRem (data.toNat <<< 10) c.g15 < 2 ^ 10) ∧
    (∀ data : BitVec 6, bchLoop c.g18 6 (data.toNat <<< 12) = bchRem (data.toNat <<< 12) c.g18 ∧
      bchRem (data.toNat <<< 12) c.g18 < 2 ^ 12)) ∧
  bchLoop 0x537 4 (24 <<< 10) ≠ bchRem (24 <<< 10) 0x537 ∧
  bchLoop 0x1F25 5 (43 <<< 12) ≠ bchRem (43 <<< 12) 0x1F25

/-- 41_bch.md R128: the shifted datum and its remainder share no bit, the unmasked result is a multiple of
the generator, and its top bits are the datum. -/
def Obligations.BchCodeIsSystematic : Prop :=
  ∀ data g : Nat, g ≠ 0 →
    let s := bitlen g - 1
    let d := data <<< s
    let r := bchRem d g
    (d ||| r) = d ^^^ r ∧ (d ||| r) = d + r ∧ bchRem (d ||| r) g = 0 ∧
      IsMultiple g (bchEncode data g 0) ∧ bchEncode data g 0 >>> s = data

/-- 41_bch.md R129 (a), (b): the remainder is linear, hence the encodings; distinct data give distinct
results. -/
def Obligations.BchCodeIsLinear : Prop :=
  (∀ a b g : Nat, g ≠ 0 → bchRem (a ^^^ b) g = bchRem a g ^^^ bchRem b g ∧
    bchEncode (a ^^^ b) g 0 = bchEncode a g 0 ^^^ bchEncode b g 0) ∧
  (∀ c : Config, c.wf = true →
    (∀ a b : BitVec 5, fmtValue c a ^^^ fmtValue c b ^^^ fmtValue c 0#5 = fmtValue c (a ^^^ b)) ∧
    (∀ a b : BitVec 6, verValue c a ^^^ verValue c b = verValue c (a ^^^ b)) ∧
    (∀ a b : BitVec 5, fmtValue c a = fmtValue c b → a = b) ∧
    (∀ a b : BitVec 6, verValue c a = verValue c b → a = b))

/-- 41_bch.md R129 (d): with the decided constants the unmasked format words differ pairwise in at least 7
bits and the version words in at least 8. It rests on the decided constants (log 3). -/
def Obligations.DecidedCodeDistances : Prop :=
  (∀ a b : BitVec 5, a ≠ b →
    7 ≤ bitDistance 15 (bchEncode a.toNat 0x537 0) (bchEncode b.toNat 0x537 0)) ∧
  (∀ a b : BitVec 6, a ≠ b →
    8 ≤ bitDistance 18 (bchEncode a.toNat 0x1F25 0) (bchEncode b.toNat 0x1F25 0))

-- ==== Responses, errors, the whole machine ====

/-- The frame of accepting an operation: what the rules' pseudocode does not write (41_bch.md R126, R127;
40_block_unpack.md R92; 60_exceptions.md R154). The table, the configuration, the channels and every table
word are unchanged; `FMT` and `VER` always answer with one word.
That an operation answered with one word leaves the sequencer registers alone, and one that starts a
sequence leaves `rw` alone, is the model's choice (log 7, DEDUCED): those registers are dead then, 10_state.md
R23 and R24 call their content unspecified, and 95_test_vectors.md section 3 lets no claim about the unit
depend on it. `exec` is taken in any phase; the unit takes it in `IDLE` only (log 16, DESIGN CHOICE). -/
def Obligations.AcceptFrame : Prop :=
  ∀ (i : Instr) (s t : State), exec i s = .next t →
    t.cfg = s.cfg ∧ t.table = s.table ∧ (∀ a, t.table.read a = s.table.read a) ∧
    t.offered = s.offered ∧ t.sent = s.sent ∧ t.edges = s.edges ∧ t.fresh = s.fresh ∧
    ((t.st = .one ∧ t.ver = s.ver ∧ t.lvl = s.lvl ∧ t.tidx = s.tidx ∧ t.rep = s.rep ∧
        t.tc = s.tc ∧ t.dc = s.dc ∧ t.lastf = s.lastf) ∨
     (t.st = .seq ∧ t.rw = s.rw ∧ ∃ version level, i = .unpack version level))

/-- 30_encoding.md R78: a response is one `VALUE`, for `FMT` and `VER`; or any number of `DESC` words and
`END`, for `UNPACK`; or one `ERR`; so its last word is the first whose kind is not `DESC`. -/
def Obligations.ResponseShapes : Prop :=
  ∀ (c : Config) (m : Memory) (word : CmdWord),
    (((∃ d, decode word = .instr (.fmt d)) ∨ ∃ d, decode word = .instr (.ver d)) →
      ∃ v, response c m word = [valueWord v]) ∧
    ((((∃ d, decode word = .instr (.fmt d)) ∨ ∃ d, decode word = .instr (.ver d)) ∧
        ∃ v, response c m word = [valueWord v]) ∨
     (∃ k info, response c m word = [errWord k info]) ∨
     (∃ ds : List (BitVec 8 × BitVec 8), (∃ version level, decode word = .instr (.unpack version level)) ∧
        response c m word = ds.map (fun e => descWord e.1 e.2) ++ [endWord])) ∧
    ∃ body last, response c m word = body ++ [last] ∧ rspKind last ≠ 0b01#2 ∧
      ∀ w ∈ body, rspKind w = 0b01#2

/-- 40_block_unpack.md R91, R102: a response has at least one word and at most `4 * 255` `DESC` words and `END`,
with R6's `MAX_TRIPLES = 4`. -/
def Obligations.ResponseLengthBound : Prop :=
  ∀ (c : Config) (m : Memory) (word : CmdWord),
    1 ≤ (response c m word).length ∧ (response c m word).length ≤ c.maxTriples * 255 + 1

/-- 60_exceptions.md R151, R152: an `ERR` word of a response is one of three: code 0 with the level 4..7,
code 2 with the version, code 4 with the whole illegal word. -/
def Obligations.ErrorsCarryTheOffendingValue : Prop :=
  ∀ (c : Config) (m : Memory) (word : CmdWord) (k : BitVec 3) (info : BitVec 16),
    errWord k info ∈ response c m word →
    (k = 0#3 ∧ ∃ version level, decode word = .instr (.unpack version level) ∧
      4 ≤ level.toNat ∧ info.toNat = level.toNat) ∨
    (k = 2#3 ∧ ∃ version level, decode word = .instr (.unpack version level) ∧
      level.toNat < 4 ∧ entry c m version (rowIndex level) = none ∧ info.toNat = version.toNat) ∨
    (k = 4#3 ∧ decode word = .illegal word ∧ info = word)

/-- 60_exceptions.md R158: no error arises in `EMIT`, `ADVANCE` or `DELIVER`: a step from a command in
progress puts no word in `rw` but `END`. -/
def Obligations.ErrorsOnlyAtAcceptance : Prop :=
  ∀ s t : State, step s = .next t → s.edge.rst = false → s.st ≠ .idle → t.rw ≠ s.rw →
    s.st = .seq ∧ t.st = .one ∧ t.rw = endWord ∧ t.sent = s.sent

/-- 10_state.md R32: every step keeps the invariant, from every state that meets it. -/
def Obligations.StepKeepsInvariant : Prop :=
  ∀ s t : State, s.Inv → step s = .next t → t.Inv

/-- 10_state.md R26, R30: registers outside their live phase carry nothing: two states that differ in them
only take the same step to states that differ in them only, and show the same valid outputs. -/
def Obligations.DeadRegistersAreNeverRead : Prop :=
  ∀ s t : State, s.LiveEq t →
    s.cmdReady = t.cmdReady ∧ s.rspValid = t.rspValid ∧
    (s.rspValid = true → s.rsp = t.rsp) ∧
    (∀ u, step s = .next u → ∃ v, step t = .next v ∧ u.LiveEq v) ∧
    (∀ r, step s = .refused r → step t = .refused r)

/-- 40_block_unpack.md R103: the steps implement the reference responses: every step but a reset keeps the
account of words sent, words the current command still owes, and responses of the words offered. -/
def Obligations.StepsImplementTheResponses : Prop :=
  ∀ s t : State, s.Inv → s.edge.rst = false → step s = .next t → t.account = s.account

/-- 40_block_unpack.md R103: after a word is accepted, the words sent up to a return to `IDLE` at which no
other word has been accepted are exactly that word's response, whatever the consumer's pauses. -/
def Obligations.EachCommandSendsItsResponse : Prop :=
  ∀ (s t u : State) (c : CmdWord) (k : Nat), s.Accepts c → s.NoReset → step s = .next t →
    runSteps k t = .next u → u.st = .idle → u.offered = t.offered →
    u.sent = s.sent ++ response s.cfg s.table c

/-- 70_reset_and_hazards.md R189: with no reset, every run ends, and has then sent exactly the words sent
before, the rest of the command in progress, and the response of each word offered, in order. That it
ends needs R185's fairness (93_implementation_defined.md U10), and the statement has it from the model's
choice of the environment (log 9, DESIGN CHOICE, unsafe for runs longer than the schedule): the pins may
be anything but reset at the edges of the finite schedule `edges`, and at every edge after it the
consumer is ready and the requester offers (`Edge.ready`). -/
def Obligations.EveryRunDeliversItsResponses : Prop :=
  ∀ s : State, s.Inv → s.NoReset →
    ∃ k t, runSteps k s = .next t ∧ t.RunEnded ∧
      t.sent = s.sent ++ s.pending ++ responses s.cfg s.table s.offered
end

