-- ==== Sys2Proof/Laws/State.lean ====
section
/-! SUPPORT. One lemma per field per update of the state, true by rfl, so that no proof unfolds a record
update. The registers a reset edge leaves unspecified have no lemma: nothing is known of them. -/

namespace Sys2Proof.Machine

@[simp] theorem State.respond_st (w : RspWord) (s : State) : (s.respond w).st = .one := rfl
@[simp] theorem State.respond_rw (w : RspWord) (s : State) : (s.respond w).rw = w := rfl
@[simp] theorem State.respond_ver (w : RspWord) (s : State) : (s.respond w).ver = s.ver := rfl
@[simp] theorem State.respond_lvl (w : RspWord) (s : State) : (s.respond w).lvl = s.lvl := rfl
@[simp] theorem State.respond_tidx (w : RspWord) (s : State) : (s.respond w).tidx = s.tidx := rfl
@[simp] theorem State.respond_rep (w : RspWord) (s : State) : (s.respond w).rep = s.rep := rfl
@[simp] theorem State.respond_tc (w : RspWord) (s : State) : (s.respond w).tc = s.tc := rfl
@[simp] theorem State.respond_dc (w : RspWord) (s : State) : (s.respond w).dc = s.dc := rfl
@[simp] theorem State.respond_lastf (w : RspWord) (s : State) : (s.respond w).lastf = s.lastf := rfl
@[simp] theorem State.respond_cfg (w : RspWord) (s : State) : (s.respond w).cfg = s.cfg := rfl
@[simp] theorem State.respond_table (w : RspWord) (s : State) : (s.respond w).table = s.table := rfl
@[simp] theorem State.respond_offered (w : RspWord) (s : State) : (s.respond w).offered = s.offered := rfl
@[simp] theorem State.respond_sent (w : RspWord) (s : State) : (s.respond w).sent = s.sent := rfl
@[simp] theorem State.respond_edges (w : RspWord) (s : State) : (s.respond w).edges = s.edges := rfl
@[simp] theorem State.respond_fresh (w : RspWord) (s : State) : (s.respond w).fresh = s.fresh := rfl

@[simp] theorem State.send_st (w : RspWord) (s : State) : (s.send w).st = s.st := rfl
@[simp] theorem State.send_rw (w : RspWord) (s : State) : (s.send w).rw = s.rw := rfl
@[simp] theorem State.send_ver (w : RspWord) (s : State) : (s.send w).ver = s.ver := rfl
@[simp] theorem State.send_lvl (w : RspWord) (s : State) : (s.send w).lvl = s.lvl := rfl
@[simp] theorem State.send_tidx (w : RspWord) (s : State) : (s.send w).tidx = s.tidx := rfl
@[simp] theorem State.send_rep (w : RspWord) (s : State) : (s.send w).rep = s.rep := rfl
@[simp] theorem State.send_tc (w : RspWord) (s : State) : (s.send w).tc = s.tc := rfl
@[simp] theorem State.send_dc (w : RspWord) (s : State) : (s.send w).dc = s.dc := rfl
@[simp] theorem State.send_lastf (w : RspWord) (s : State) : (s.send w).lastf = s.lastf := rfl
@[simp] theorem State.send_cfg (w : RspWord) (s : State) : (s.send w).cfg = s.cfg := rfl
@[simp] theorem State.send_table (w : RspWord) (s : State) : (s.send w).table = s.table := rfl
@[simp] theorem State.send_offered (w : RspWord) (s : State) : (s.send w).offered = s.offered := rfl
@[simp] theorem State.send_sent (w : RspWord) (s : State) : (s.send w).sent = s.sent ++ [w] := rfl
@[simp] theorem State.send_edges (w : RspWord) (s : State) : (s.send w).edges = s.edges := rfl
@[simp] theorem State.send_fresh (w : RspWord) (s : State) : (s.send w).fresh = s.fresh := rfl

@[simp] theorem State.deliver_st (s : State) : (s.deliver).st = .idle := rfl
@[simp] theorem State.deliver_rw (s : State) : (s.deliver).rw = s.rw := rfl
@[simp] theorem State.deliver_ver (s : State) : (s.deliver).ver = s.ver := rfl
@[simp] theorem State.deliver_lvl (s : State) : (s.deliver).lvl = s.lvl := rfl
@[simp] theorem State.deliver_tidx (s : State) : (s.deliver).tidx = s.tidx := rfl
@[simp] theorem State.deliver_rep (s : State) : (s.deliver).rep = s.rep := rfl
@[simp] theorem State.deliver_tc (s : State) : (s.deliver).tc = s.tc := rfl
@[simp] theorem State.deliver_dc (s : State) : (s.deliver).dc = s.dc := rfl
@[simp] theorem State.deliver_lastf (s : State) : (s.deliver).lastf = s.lastf := rfl
@[simp] theorem State.deliver_cfg (s : State) : (s.deliver).cfg = s.cfg := rfl
@[simp] theorem State.deliver_table (s : State) : (s.deliver).table = s.table := rfl
@[simp] theorem State.deliver_offered (s : State) : (s.deliver).offered = s.offered := rfl
@[simp] theorem State.deliver_sent (s : State) : (s.deliver).sent = s.sent ++ [s.rw] := rfl
@[simp] theorem State.deliver_edges (s : State) : (s.deliver).edges = s.edges := rfl
@[simp] theorem State.deliver_fresh (s : State) : (s.deliver).fresh = s.fresh := rfl

@[simp] theorem State.tick_st (s : State) : (s.tick).st = s.st := rfl
@[simp] theorem State.tick_rw (s : State) : (s.tick).rw = s.rw := rfl
@[simp] theorem State.tick_ver (s : State) : (s.tick).ver = s.ver := rfl
@[simp] theorem State.tick_lvl (s : State) : (s.tick).lvl = s.lvl := rfl
@[simp] theorem State.tick_tidx (s : State) : (s.tick).tidx = s.tidx := rfl
@[simp] theorem State.tick_rep (s : State) : (s.tick).rep = s.rep := rfl
@[simp] theorem State.tick_tc (s : State) : (s.tick).tc = s.tc := rfl
@[simp] theorem State.tick_dc (s : State) : (s.tick).dc = s.dc := rfl
@[simp] theorem State.tick_lastf (s : State) : (s.tick).lastf = s.lastf := rfl
@[simp] theorem State.tick_cfg (s : State) : (s.tick).cfg = s.cfg := rfl
@[simp] theorem State.tick_table (s : State) : (s.tick).table = s.table := rfl
@[simp] theorem State.tick_offered (s : State) : (s.tick).offered = s.offered := rfl
@[simp] theorem State.tick_sent (s : State) : (s.tick).sent = s.sent := rfl
@[simp] theorem State.tick_edges (s : State) : (s.tick).edges = s.edges.tail := rfl
@[simp] theorem State.tick_fresh (s : State) : (s.tick).fresh = s.fresh := rfl

@[simp] theorem State.takeCommand_st (s : State) : (s.takeCommand).st = s.st := rfl
@[simp] theorem State.takeCommand_rw (s : State) : (s.takeCommand).rw = s.rw := rfl
@[simp] theorem State.takeCommand_ver (s : State) : (s.takeCommand).ver = s.ver := rfl
@[simp] theorem State.takeCommand_lvl (s : State) : (s.takeCommand).lvl = s.lvl := rfl
@[simp] theorem State.takeCommand_tidx (s : State) : (s.takeCommand).tidx = s.tidx := rfl
@[simp] theorem State.takeCommand_rep (s : State) : (s.takeCommand).rep = s.rep := rfl
@[simp] theorem State.takeCommand_tc (s : State) : (s.takeCommand).tc = s.tc := rfl
@[simp] theorem State.takeCommand_dc (s : State) : (s.takeCommand).dc = s.dc := rfl
@[simp] theorem State.takeCommand_lastf (s : State) : (s.takeCommand).lastf = s.lastf := rfl
@[simp] theorem State.takeCommand_cfg (s : State) : (s.takeCommand).cfg = s.cfg := rfl
@[simp] theorem State.takeCommand_table (s : State) : (s.takeCommand).table = s.table := rfl
@[simp] theorem State.takeCommand_offered (s : State) : (s.takeCommand).offered = s.offered.tail := rfl
@[simp] theorem State.takeCommand_sent (s : State) : (s.takeCommand).sent = s.sent := rfl
@[simp] theorem State.takeCommand_edges (s : State) : (s.takeCommand).edges = s.edges := rfl
@[simp] theorem State.takeCommand_fresh (s : State) : (s.takeCommand).fresh = s.fresh := rfl

@[simp] theorem State.placeCommand_st (c : CmdWord) (s : State) : (s.placeCommand c).st = .idle := rfl
@[simp] theorem State.placeCommand_rw (c : CmdWord) (s : State) : (s.placeCommand c).rw = s.rw := rfl
@[simp] theorem State.placeCommand_ver (c : CmdWord) (s : State) : (s.placeCommand c).ver = s.ver := rfl
@[simp] theorem State.placeCommand_lvl (c : CmdWord) (s : State) : (s.placeCommand c).lvl = s.lvl := rfl
@[simp] theorem State.placeCommand_tidx (c : CmdWord) (s : State) : (s.placeCommand c).tidx = s.tidx := rfl
@[simp] theorem State.placeCommand_rep (c : CmdWord) (s : State) : (s.placeCommand c).rep = s.rep := rfl
@[simp] theorem State.placeCommand_tc (c : CmdWord) (s : State) : (s.placeCommand c).tc = s.tc := rfl
@[simp] theorem State.placeCommand_dc (c : CmdWord) (s : State) : (s.placeCommand c).dc = s.dc := rfl
@[simp] theorem State.placeCommand_lastf (c : CmdWord) (s : State) : (s.placeCommand c).lastf = s.lastf := rfl
@[simp] theorem State.placeCommand_cfg (c : CmdWord) (s : State) : (s.placeCommand c).cfg = s.cfg := rfl
@[simp] theorem State.placeCommand_table (c : CmdWord) (s : State) : (s.placeCommand c).table = s.table := rfl
@[simp] theorem State.placeCommand_offered (c : CmdWord) (s : State) : (s.placeCommand c).offered = c :: s.offered := rfl
@[simp] theorem State.placeCommand_sent (c : CmdWord) (s : State) : (s.placeCommand c).sent = s.sent := rfl
@[simp] theorem State.placeCommand_edges (c : CmdWord) (s : State) : (s.placeCommand c).edges = Edge.ready :: s.edges := rfl
@[simp] theorem State.placeCommand_fresh (c : CmdWord) (s : State) : (s.placeCommand c).fresh = s.fresh := rfl

@[simp] theorem State.applyReset_st (s : State) : (s.applyReset).st = .idle := rfl
@[simp] theorem State.applyReset_cfg (s : State) : (s.applyReset).cfg = s.cfg := rfl
@[simp] theorem State.applyReset_table (s : State) : (s.applyReset).table = s.table := rfl
@[simp] theorem State.applyReset_offered (s : State) : (s.applyReset).offered = s.offered := rfl
@[simp] theorem State.applyReset_sent (s : State) : (s.applyReset).sent = s.sent := rfl
@[simp] theorem State.applyReset_edges (s : State) : (s.applyReset).edges = s.edges := rfl
@[simp] theorem State.applyReset_fresh (s : State) : (s.applyReset).fresh = s.fresh + 8 := rfl

@[simp] theorem State.startSeq_st (v : BitVec 8) (l : BitVec 2) (s : State) : (s.startSeq v l).st = .seq := rfl
@[simp] theorem State.startSeq_rw (v : BitVec 8) (l : BitVec 2) (s : State) : (s.startSeq v l).rw = s.rw := rfl
@[simp] theorem State.startSeq_ver (v : BitVec 8) (l : BitVec 2) (s : State) : (s.startSeq v l).ver = v := rfl
@[simp] theorem State.startSeq_lvl (v : BitVec 8) (l : BitVec 2) (s : State) : (s.startSeq v l).lvl = l := rfl
@[simp] theorem State.startSeq_tidx (v : BitVec 8) (l : BitVec 2) (s : State) : (s.startSeq v l).tidx = s.tidx := rfl
@[simp] theorem State.startSeq_rep (v : BitVec 8) (l : BitVec 2) (s : State) : (s.startSeq v l).rep = s.rep := rfl
@[simp] theorem State.startSeq_tc (v : BitVec 8) (l : BitVec 2) (s : State) : (s.startSeq v l).tc = s.tc := rfl
@[simp] theorem State.startSeq_dc (v : BitVec 8) (l : BitVec 2) (s : State) : (s.startSeq v l).dc = s.dc := rfl
@[simp] theorem State.startSeq_lastf (v : BitVec 8) (l : BitVec 2) (s : State) : (s.startSeq v l).lastf = s.lastf := rfl
@[simp] theorem State.startSeq_cfg (v : BitVec 8) (l : BitVec 2) (s : State) : (s.startSeq v l).cfg = s.cfg := rfl
@[simp] theorem State.startSeq_table (v : BitVec 8) (l : BitVec 2) (s : State) : (s.startSeq v l).table = s.table := rfl
@[simp] theorem State.startSeq_offered (v : BitVec 8) (l : BitVec 2) (s : State) : (s.startSeq v l).offered = s.offered := rfl
@[simp] theorem State.startSeq_sent (v : BitVec 8) (l : BitVec 2) (s : State) : (s.startSeq v l).sent = s.sent := rfl
@[simp] theorem State.startSeq_edges (v : BitVec 8) (l : BitVec 2) (s : State) : (s.startSeq v l).edges = s.edges := rfl
@[simp] theorem State.startSeq_fresh (v : BitVec 8) (l : BitVec 2) (s : State) : (s.startSeq v l).fresh = s.fresh := rfl

@[simp] theorem State.load_st (w : TblWord) (i : BitVec 2) (s : State) : (s.load w i).st = s.st := rfl
@[simp] theorem State.load_rw (w : TblWord) (i : BitVec 2) (s : State) : (s.load w i).rw = s.rw := rfl
@[simp] theorem State.load_ver (w : TblWord) (i : BitVec 2) (s : State) : (s.load w i).ver = s.ver := rfl
@[simp] theorem State.load_lvl (w : TblWord) (i : BitVec 2) (s : State) : (s.load w i).lvl = s.lvl := rfl
@[simp] theorem State.load_tidx (w : TblWord) (i : BitVec 2) (s : State) : (s.load w i).tidx = i := rfl
@[simp] theorem State.load_rep (w : TblWord) (i : BitVec 2) (s : State) : (s.load w i).rep = (tripleOf w).rc := rfl
@[simp] theorem State.load_tc (w : TblWord) (i : BitVec 2) (s : State) : (s.load w i).tc = (tripleOf w).tc := rfl
@[simp] theorem State.load_dc (w : TblWord) (i : BitVec 2) (s : State) : (s.load w i).dc = (tripleOf w).dc := rfl
@[simp] theorem State.load_lastf (w : TblWord) (i : BitVec 2) (s : State) : (s.load w i).lastf = lastFlag s.cfg.maxTriples w i := rfl
@[simp] theorem State.load_cfg (w : TblWord) (i : BitVec 2) (s : State) : (s.load w i).cfg = s.cfg := rfl
@[simp] theorem State.load_table (w : TblWord) (i : BitVec 2) (s : State) : (s.load w i).table = s.table := rfl
@[simp] theorem State.load_offered (w : TblWord) (i : BitVec 2) (s : State) : (s.load w i).offered = s.offered := rfl
@[simp] theorem State.load_sent (w : TblWord) (i : BitVec 2) (s : State) : (s.load w i).sent = s.sent := rfl
@[simp] theorem State.load_edges (w : TblWord) (i : BitVec 2) (s : State) : (s.load w i).edges = s.edges := rfl
@[simp] theorem State.load_fresh (w : TblWord) (i : BitVec 2) (s : State) : (s.load w i).fresh = s.fresh := rfl

@[simp] theorem State.emit_st (s : State) : (s.emit).st = s.st := rfl
@[simp] theorem State.emit_rw (s : State) : (s.emit).rw = s.rw := rfl
@[simp] theorem State.emit_ver (s : State) : (s.emit).ver = s.ver := rfl
@[simp] theorem State.emit_lvl (s : State) : (s.emit).lvl = s.lvl := rfl
@[simp] theorem State.emit_tidx (s : State) : (s.emit).tidx = s.tidx := rfl
@[simp] theorem State.emit_rep (s : State) : (s.emit).rep = s.rep - 1#8 := rfl
@[simp] theorem State.emit_tc (s : State) : (s.emit).tc = s.tc := rfl
@[simp] theorem State.emit_dc (s : State) : (s.emit).dc = s.dc := rfl
@[simp] theorem State.emit_lastf (s : State) : (s.emit).lastf = s.lastf := rfl
@[simp] theorem State.emit_cfg (s : State) : (s.emit).cfg = s.cfg := rfl
@[simp] theorem State.emit_table (s : State) : (s.emit).table = s.table := rfl
@[simp] theorem State.emit_offered (s : State) : (s.emit).offered = s.offered := rfl
@[simp] theorem State.emit_sent (s : State) : (s.emit).sent = s.sent ++ [descWord s.tc s.dc] := rfl
@[simp] theorem State.emit_edges (s : State) : (s.emit).edges = s.edges := rfl
@[simp] theorem State.emit_fresh (s : State) : (s.emit).fresh = s.fresh := rfl

/-- Raising an error is answering with its `ERR` word (60_exceptions.md R154). -/
@[simp] theorem State.raise_eq (k : ErrorKind) (i : BitVec 16) (s : State) :
    s.raise k i = s.respond (errWord (errorCode k) i) := rfl

/-- `ADVANCE` after the last triple (40_block_unpack.md R95). -/
theorem State.advance_last (s : State) (h : s.lastf = true) : s.advance = s.respond endWord := by
  simp [State.advance, h]

/-- `ADVANCE` to the next triple (40_block_unpack.md R95). -/
theorem State.advance_next (s : State) (h : s.lastf = false) :
    s.advance = s.load (s.table.read (tblAddr s.ver s.lvl (s.tidx + 1#2))) (s.tidx + 1#2) := by
  simp [State.advance, h]

@[simp] theorem State.advance_ver (s : State) : s.advance.ver = s.ver := by
  unfold State.advance; split <;> rfl
@[simp] theorem State.advance_lvl (s : State) : s.advance.lvl = s.lvl := by
  unfold State.advance; split <;> rfl
@[simp] theorem State.advance_cfg (s : State) : s.advance.cfg = s.cfg := by
  unfold State.advance; split <;> rfl
@[simp] theorem State.advance_table (s : State) : s.advance.table = s.table := by
  unfold State.advance; split <;> rfl
@[simp] theorem State.advance_offered (s : State) : s.advance.offered = s.offered := by
  unfold State.advance; split <;> rfl
@[simp] theorem State.advance_sent (s : State) : s.advance.sent = s.sent := by
  unfold State.advance; split <;> rfl
@[simp] theorem State.advance_edges (s : State) : s.advance.edges = s.edges := by
  unfold State.advance; split <;> rfl
@[simp] theorem State.advance_fresh (s : State) : s.advance.fresh = s.fresh := by
  unfold State.advance; split <;> rfl

end Sys2Proof.Machine
end

