-- ==== Sys2Proof/Laws/Step.lean ====
section
/-! SUPPORT. What an accepted command and a clock edge can do, said once: later proofs cite these and do
not unfold the step. -/

namespace Sys2Proof.Machine

/-- The three outcomes of accepting `UNPACK` (40_block_unpack.md R92). -/
theorem execUnpack_cases (version : BitVec 8) (level : BitVec 3) (s : State) :
    (levelInvalid level = true ∧
      execUnpack version level s =
        .next (s.respond (errWord (errorCode .unknownErrorLevel) (level.setWidth 16)))) ∨
    (levelInvalid level = false ∧
      presentMark (s.table.read (tblAddr version (rowIndex level) 0#2)) = false ∧
      execUnpack version level s =
        .next (s.respond (errWord (errorCode .unknownVersion) (version.setWidth 16)))) ∨
    (levelInvalid level = false ∧
      presentMark (s.table.read (tblAddr version (rowIndex level) 0#2)) = true ∧
      execUnpack version level s =
        .next ((s.startSeq version (rowIndex level)).load
          (s.table.read (tblAddr version (rowIndex level) 0#2)) 0#2)) := by
  unfold execUnpack
  cases hl : levelInvalid level
  · cases hp : presentMark (s.table.read (tblAddr version (rowIndex level) 0#2)) <;> simp [hp]
  · simp

/-- What accepting a command word can do: one word is put in `rw`, or the sequence of an `UNPACK` is
started. No other register, channel or table word changes. -/
theorem accept_cases (c : CmdWord) (s : State) :
    (∃ w, accept c s = .next (s.respond w)) ∨
    ∃ version level, decode c = .instr (.unpack version level) ∧
      levelInvalid level = false ∧
      presentMark (s.table.read (tblAddr version (rowIndex level) 0#2)) = true ∧
      accept c s = .next ((s.startSeq version (rowIndex level)).load
        (s.table.read (tblAddr version (rowIndex level) 0#2)) 0#2) := by
  unfold accept
  cases hd : decode c with
  | illegal w => exact .inl ⟨_, rfl⟩
  | instr i =>
    cases i with
    | fmt data => exact .inl ⟨_, rfl⟩
    | ver data => exact .inl ⟨_, rfl⟩
    | unpack version level =>
      rcases execUnpack_cases version level s with ⟨-, h⟩ | ⟨-, -, h⟩ | ⟨hl, hp, h⟩
      · exact .inl ⟨_, h⟩
      · exact .inl ⟨_, h⟩
      · exact .inr ⟨version, level, rfl, hl, hp, h⟩

/-- What one step can do (10_state.md R27): reset, wait, or the one enabled step. -/
theorem step_cases {s t : State} (h : step s = .next t) :
    s.cfg.wf = true ∧
    ((s.edge.rst = true ∧ t = s.tick.applyReset) ∨
     (s.edge.rst = false ∧ t = s.tick ∧
       ((s.st = .idle ∧ (s.edge.offer = false ∨ s.offered = [])) ∨
        (s.st = .one ∧ s.edge.rspReady = false) ∨
        (s.st = .seq ∧ s.rep ≠ 0#8 ∧ s.edge.rspReady = false))) ∨
     (s.edge.rst = false ∧ s.st = .idle ∧ s.edge.offer = true ∧
       ∃ c rest, s.offered = c :: rest ∧ accept c s.tick.takeCommand = .next t) ∨
     (s.edge.rst = false ∧ s.st = .one ∧ s.edge.rspReady = true ∧ t = s.tick.deliver) ∨
     (s.edge.rst = false ∧ s.st = .seq ∧ s.rep = 0#8 ∧ t = s.tick.advance) ∨
     (s.edge.rst = false ∧ s.st = .seq ∧ s.rep ≠ 0#8 ∧ s.edge.rspReady = true ∧
       t = s.tick.emit)) := by
  unfold step nextEdge at h
  split at h
  case isFalse => cases h
  case isTrue hc =>
    refine ⟨hc, ?_⟩
    unfold clockEdge at h
    cases hr : s.edge.rst
    case true => simp_all
    case false =>
      cases hs : s.st
      case idle =>
        cases ho : s.edge.offer <;> cases hq : s.offered <;> simp_all
      case one => cases hk : s.edge.rspReady <;> simp_all
      case seq =>
        by_cases hz : s.rep = 0#8
        · simp_all
        · cases hk : s.edge.rspReady <;> simp_all

end Sys2Proof.Machine
end

