-- ==== Sys2Proof/Laws/Bits.lean ====
section
/-! SUPPORT. The small lemmas of `bitlen` (00_scope.md R11) and of one pass of the division loop
(41_bch.md R121). -/

namespace Sys2Proof.Machine

@[simp] theorem bitlen_zero : bitlen 0 = 0 := rfl

theorem bitlen_of_ne_zero {v : Nat} (h : v ≠ 0) : bitlen v = Nat.log2 v + 1 := by
  simp [bitlen, h, Nat.add_comm]

/-- `bitlen(v) <= n` says `v < 2^n`: the bound every width argument goes through. -/
theorem bitlen_le_iff {v n : Nat} : bitlen v ≤ n ↔ v < 2 ^ n := by
  by_cases h : v = 0
  · subst h; simp
  · rw [bitlen_of_ne_zero h, Nat.succ_le_iff, Nat.log2_lt h]

theorem lt_two_pow_bitlen (v : Nat) : v < 2 ^ bitlen v := bitlen_le_iff.1 le_rfl

theorem bitlen_eq_zero {v : Nat} : bitlen v = 0 ↔ v = 0 := by
  constructor
  · intro h
    have := lt_two_pow_bitlen v
    rw [h] at this
    omega
  · rintro rfl; rfl

theorem bitlen_eq_succ_iff {v n : Nat} : bitlen v = n + 1 ↔ 2 ^ n ≤ v ∧ v < 2 ^ (n + 1) := by
  have h1 := @bitlen_le_iff v n
  have h2 := @bitlen_le_iff v (n + 1)
  constructor
  · intro h
    exact ⟨not_lt.1 fun hlt => by have := h1.2 hlt; omega, h2.1 h.le⟩
  · rintro ⟨ha, hb⟩
    have := h2.2 hb
    have : ¬ bitlen v ≤ n := fun hle => absurd (h1.1 hle) (not_lt.2 ha)
    omega

/-- The highest set bit is at `bitlen(v) - 1`. -/
theorem testBit_of_bitlen {v n : Nat} (h : bitlen v = n + 1) : v.testBit n = true := by
  obtain ⟨ha, hb⟩ := bitlen_eq_succ_iff.1 h
  rw [Nat.testBit_eq_decide_div_mod_eq, decide_eq_true_eq]
  have : v / 2 ^ n = 1 := by
    rw [Nat.div_eq_iff (Nat.two_pow_pos n)]
    rw [Nat.pow_succ] at hb
    omega
  rw [this]

theorem bitlen_shiftLeft {g : Nat} (hg : g ≠ 0) (k : Nat) : bitlen (g <<< k) = bitlen g + k := by
  obtain ⟨n, hn⟩ : ∃ n, bitlen g = n + 1 :=
    ⟨bitlen g - 1, by have := mt bitlen_eq_zero.1 hg; omega⟩
  obtain ⟨ha, hb⟩ := bitlen_eq_succ_iff.1 hn
  rw [hn, show n + 1 + k = (n + k) + 1 by omega, bitlen_eq_succ_iff, Nat.shiftLeft_eq]
  refine ⟨?_, ?_⟩
  · rw [pow_add]; exact Nat.mul_le_mul_right _ ha
  · rw [show n + k + 1 = (n + 1) + k by omega, pow_add]
    exact Nat.mul_lt_mul_of_pos_right hb (Nat.two_pow_pos k)

/-- XOR of two numbers of one bit-length is shorter. -/
theorem bitlen_xor_lt {a b n : Nat} (ha : bitlen a = n + 1) (hb : bitlen b = n + 1) :
    a ^^^ b < 2 ^ n := by
  have h1 : a < 2 ^ (n + 1) := (bitlen_eq_succ_iff.1 ha).2
  have h2 : b < 2 ^ (n + 1) := (bitlen_eq_succ_iff.1 hb).2
  refine Nat.lt_pow_two_of_testBit _ fun i hi => ?_
  rcases Nat.eq_or_lt_of_le hi with rfl | hlt
  · simp [testBit_of_bitlen ha, testBit_of_bitlen hb]
  · have hle : 2 ^ (n + 1) ≤ 2 ^ i := Nat.pow_le_pow_right (by omega) hlt
    simp [Nat.testBit_lt_two_pow (h1.trans_le hle), Nat.testBit_lt_two_pow (h2.trans_le hle)]

/-- Each pass of the loop lowers `bitlen(r)` (41_bch.md R122). -/
theorem bitlen_pass_lt {g r : Nat} (hg : g ≠ 0) (h : bitlen g ≤ bitlen r) :
    bitlen (r ^^^ (g <<< (bitlen r - bitlen g))) < bitlen r := by
  obtain ⟨n, hn⟩ : ∃ n, bitlen r = n + 1 :=
    ⟨bitlen r - 1, by have := mt bitlen_eq_zero.1 hg; omega⟩
  have hs : bitlen (g <<< (bitlen r - bitlen g)) = n + 1 := by
    rw [bitlen_shiftLeft hg]; omega
  have := bitlen_le_iff.2 (bitlen_xor_lt hn hs)
  omega

/-- `Config.wf` says the constraints of 00_scope.md R7 and R8 and the decided layout. -/
theorem wf_iff {c : Config} :
    c.wf = true ↔
      bitlen c.g15 = 11 ∧ bitlen c.g18 = 13 ∧ c.fmtMask < 2 ^ 15 ∧ c.toLayout = Layout.decided := by
  obtain ⟨l, g15, g18, fmtMask⟩ := c
  simp only [Config.wf, Config.constantsWf, Bool.and_eq_true, decide_eq_true_eq]
  constructor
  · rintro ⟨⟨⟨h1, h2⟩, h3⟩, rfl⟩
    exact ⟨h1, h2, h3, rfl⟩
  · rintro ⟨h1, h2, h3, rfl⟩
    exact ⟨⟨⟨h1, h2⟩, h3⟩, rfl⟩

/-- A well-formed configuration has the layout of 00_scope.md R6. -/
theorem wf_layout {c : Config} (h : c.wf = true) : c.toLayout = Layout.decided := (wf_iff.1 h).2.2.2

/-- With a well-formed configuration an entry has at most four words (20_memory.md R44). -/
theorem wf_maxTriples {c : Config} (h : c.wf = true) : c.maxTriples = 4 :=
  congrArg Layout.maxTriples (wf_layout h)

/-- With `MAX_TRIPLES = 4`, the rule's `w[30] == 1 or i == 3` (40_block_unpack.md R93). -/
theorem lastFlag_four (w : TblWord) (i : BitVec 2) :
    lastFlag 4 w i = (lastMark w || decide (i = 3#2)) := by
  unfold lastFlag
  congr 1
  revert i; decide

/-- The words of an entry, with `MAX_TRIPLES = 4` (20_memory.md R43, R44). -/
theorem tripleIndices_four : tripleIndices 4 = [0#2, 1#2, 2#2, 3#2] := rfl

/-- The loop does nothing to a number shorter than the generator. -/
theorem bchLoop_short {g r : Nat} (h : bitlen r < bitlen g) (n : Nat) : bchLoop g n r = r := by
  cases n with
  | zero => rfl
  | succ n => simp [bchLoop, Nat.not_le.2 h]

end Sys2Proof.Machine
end

