-- ==== Sys2Proof/Laws/Memory.lean ====
section
/-! SUPPORT. The table as data: every operation keeps the canonical form, and a read after a write. -/

namespace Sys2Proof.Machine

@[simp] theorem Memory.read_nil (a : TblAddr) : Memory.read [] a = unlistedWord := rfl

theorem Memory.wf_cons {k : Nat} {w : TblWord} {m : Memory} :
    Memory.wf ((k, w) :: m) = true ↔
      k < 4096 ∧ w ≠ unlistedWord ∧ (∀ c ∈ m, k < c.1) ∧ Memory.wf m = true := by
  simp [Memory.wf, and_assoc]

/-- The table after reset is in canonical form. -/
theorem State.reset_table_wf : Memory.wf State.reset.table = true := rfl

/-- An address below every listed one is not listed. -/
theorem Memory.read_below {m : Memory} {a : TblAddr} (h : ∀ c ∈ m, a.toNat < c.1) :
    Memory.read m a = unlistedWord := by
  induction m with
  | nil => rfl
  | cons c m ih =>
    obtain ⟨k, w⟩ := c
    have hk : a.toNat < k := h (k, w) (by simp)
    simp only [Memory.read, if_neg (show ¬ k = a.toNat by omega)]
    exact ih fun c hc => h c (List.mem_cons_of_mem _ hc)

/-- A write adds no entry but its own. -/
theorem Memory.mem_write {m : Memory} {a : TblAddr} {w : TblWord} {c : Nat × TblWord}
    (h : c ∈ Memory.write m a w) : c ∈ m ∨ c = (a.toNat, w) := by
  induction m with
  | nil =>
    unfold Memory.write at h
    split at h <;> simp_all
  | cons e m ih =>
    obtain ⟨k, x⟩ := e
    unfold Memory.write at h
    split_ifs at h with h1 h2 h3 h4
    · exact .inl h
    · exact (List.mem_cons.1 h).symm.imp_right id
    · exact .inl (List.mem_cons_of_mem _ h)
    · rcases List.mem_cons.1 h with rfl | h
      · exact .inr (by rw [h3])
      · exact .inl (List.mem_cons_of_mem _ h)
    · rcases List.mem_cons.1 h with rfl | h
      · exact .inl (List.mem_cons_self ..)
      · exact (ih h).imp_left (List.mem_cons_of_mem _)

/-- A write keeps the canonical form. -/
theorem Memory.write_wf {m : Memory} (h : Memory.wf m = true) (a : TblAddr) (w : TblWord) :
    Memory.wf (Memory.write m a w) = true := by
  induction m with
  | nil =>
    unfold Memory.write
    split
    · rfl
    · exact Memory.wf_cons.2 ⟨a.isLt, by assumption, by simp, rfl⟩
  | cons c m ih =>
    obtain ⟨k, x⟩ := c
    obtain ⟨hk, hx, hb, hm⟩ := Memory.wf_cons.1 h
    unfold Memory.write
    split_ifs with h1 h2 h3 h4
    · exact h
    · refine Memory.wf_cons.2 ⟨a.isLt, h2, ?_, h⟩
      intro c hc
      rcases List.mem_cons.1 hc with rfl | hc
      · exact h1
      · exact h1.trans (hb c hc)
    · exact hm
    · exact Memory.wf_cons.2 ⟨hk, h4, hb, hm⟩
    · refine Memory.wf_cons.2 ⟨hk, hx, fun c hc => ?_, ih hm⟩
      rcases Memory.mem_write hc with hc | rfl
      · exact hb c hc
      · show k < a.toNat
        omega

/-- A read after a write (20_memory.md R42): the word written at its address, the old word elsewhere. -/
theorem Memory.read_write {m : Memory} (h : Memory.wf m = true) (a b : TblAddr) (w : TblWord) :
    Memory.read (Memory.write m a w) b = if b = a then w else Memory.read m b := by
  have hab : ∀ {x y : TblAddr}, x.toNat = y.toNat ↔ x = y := fun {x y} => BitVec.toNat_inj
  induction m with
  | nil =>
    unfold Memory.write
    by_cases hba : b = a
    · subst hba; split <;> simp_all [Memory.read]
    · have : ¬ a.toNat = b.toNat := fun e => hba (hab.1 e.symm)
      split <;> simp_all [Memory.read]
  | cons c m ih =>
    obtain ⟨k, x⟩ := c
    obtain ⟨-, -, hb, hm⟩ := Memory.wf_cons.1 h
    have ih := ih hm
    by_cases hba : b = a
    · subst hba
      unfold Memory.write
      simp only [if_true] at ih ⊢
      split_ifs with h1 h2 h3 h4
      · rw [Memory.read_below, h2]
        intro c hc
        rcases List.mem_cons.1 hc with rfl | hc
        · exact h1
        · exact h1.trans (hb c hc)
      · simp [Memory.read]
      · rw [Memory.read_below, h4]
        intro c hc
        exact h3 ▸ hb c hc
      · simp [Memory.read, h3]
      · simp only [Memory.read, if_neg (show ¬ k = b.toNat by omega)]
        exact ih
    · have hne : ¬ a.toNat = b.toNat := fun e => hba (hab.1 e.symm)
      unfold Memory.write
      simp only [if_neg hba] at ih ⊢
      split_ifs with h1 h2 h3 h4
      · rfl
      · simp [Memory.read, hne]
      · simp [Memory.read, show ¬ k = b.toNat by omega]
      · simp [Memory.read, show ¬ k = b.toNat by omega]
      · simp only [Memory.read, ih]

end Sys2Proof.Machine
end

