-- ==== Sys2Proof/Laws/PerInstr.lean ====
section
/-! SUPPORT. Statements about every instruction as syntax, one lemma per constructor. -/

namespace Sys2Proof.Laws

/-- The word of an instruction is its row's word of spec/opcode_table.json: the row is in the table, the
word's fixed bits are the row's, and the instruction is well formed (30_encoding.md R62, R63, R64). -/
def FitsItsRow.Statement (i : Instr) : Prop :=
  rowOf i ∈ opcodeTable ∧ encode i &&& (rowOf i).mask = (rowOf i).bits ∧ i.WellFormed = true

theorem FitsItsRow.unpack (version : BitVec 8) (level : BitVec 3) :
    FitsItsRow.Statement (.unpack version level) := by
  refine ⟨by simp [rowOf, opcodeTable], ?_, ?_⟩
  · revert version level; decide +kernel
  · have := version.isLt; have := level.isLt
    simp [Instr.WellFormed]; omega

theorem FitsItsRow.fmt (data : BitVec 5) : FitsItsRow.Statement (.fmt data) := by
  revert data; unfold FitsItsRow.Statement; decide

theorem FitsItsRow.ver (data : BitVec 6) : FitsItsRow.Statement (.ver data) := by
  revert data; unfold FitsItsRow.Statement; decide

end Sys2Proof.Laws
end

