-- ==== Sys2Proof/Laws/Run.lean ====
section
/-! SUPPORT. Runs of several steps: one step at a time, appended, and what every step keeps. -/

namespace Sys2Proof.Machine

@[simp] theorem runSteps_zero (s : State) : runSteps 0 s = .next s := rfl

/-- A run whose first step answers goes on from there. -/
theorem runSteps_succ {s t : State} (h : step s = .next t) (k : Nat) :
    runSteps (k + 1) s = runSteps k t := by
  simp [runSteps, h]

/-- A run that answers took its first step. -/
theorem runSteps_succ_next {s u : State} {k : Nat} (h : runSteps (k + 1) s = .next u) :
    ∃ t, step s = .next t ∧ runSteps k t = .next u := by
  rw [runSteps] at h
  split at h
  · exact ⟨_, by assumption, h⟩
  · cases h
  · cases h

/-- Two runs, one after the other, are one run. -/
theorem runSteps_add {s t : State} {j : Nat} (h : runSteps j s = .next t) (k : Nat) :
    runSteps (j + k) s = runSteps k t := by
  induction j generalizing s with
  | zero => cases h; simp
  | succ j ih =>
    obtain ⟨u, hu, h⟩ := runSteps_succ_next h
    rw [Nat.succ_add, runSteps_succ hu, ih h]

/-- What every step keeps, every run keeps. -/
theorem runSteps_keeps {P : State → Prop} (hP : ∀ s t, P s → step s = .next t → P t) {k : Nat}
    {s t : State} (hs : P s) (h : runSteps k s = .next t) : P t := by
  induction k generalizing s with
  | zero => cases h; exact hs
  | succ k ih =>
    obtain ⟨u, hu, h⟩ := runSteps_succ_next h
    exact ih (hP s u hs hu) h

/-- A word accepted at the coming edge is the first of those offered. -/
theorem State.Accepts.offered_eq {s : State} {c : CmdWord} (h : s.Accepts c) :
    s.offered = c :: s.offered.tail := by
  cases ho : s.offered with
  | nil => have := h.word; simp [ho] at this
  | cons a r => have := h.word; simp [ho] at this; simp [this]

/-- One step of a run of any machine behind the host's interface. -/
theorem hostRun_succ (M : Host.Core) (k : Nat) (s : M.State) :
    (∀ t, M.step s = .next t → M.run (k + 1) s = M.run k t) ∧
    (∀ r, M.step s = .fault r → M.run (k + 1) s = .fault r) ∧
    (∀ r, M.step s = .refused r → M.run (k + 1) s = .refused r) := by
  refine ⟨?_, ?_, ?_⟩ <;> intro _ h <;> simp [Host.Core.run, h]

/-- The runs of this machine are the host's. -/
theorem runSteps_eq_host (k : Nat) (s : State) : runSteps k s = Host.Core.run Sys2Proof.core k s := by
  induction k generalizing s with
  | zero => rfl
  | succ k ih =>
    obtain ⟨hn, hf, hr⟩ := hostRun_succ Sys2Proof.core k s
    rw [runSteps]
    cases h : step s with
    | next t => exact (ih t).trans (hn t h).symm
    | fault r => exact (hf r h).symm
    | refused r => exact (hr r h).symm

end Sys2Proof.Machine
end

