-- ==== Sys2Proof/Tests/Slice0.lean ====
section
/-! SUPPORT. The model's own tests: expected results are from spec/ (95_test_vectors.md unless another
file is named), and a witness for every statement with hypotheses. -/

namespace Sys2Proof.Tests

open Sys2Proof.Machine

/-! ### States the tests start from -/

/-- The entries of `TABLE_FIX` for (1, L), (5, Q), (200, H) and (201, L) (section 2.6). -/
def tableFix : Memory :=
  [(0x010, 0xC0011A13#32), (0x058, 0x8002210F#32), (0x059, 0xC0022210#32), (0xC8C, 0x80000A05#32)] ++
  [(0xC8D, 0xC0020709#32), (0xC90, 0x80010101#32), (0xC91, 0x80010202#32), (0xC92, 0x80010303#32)] ++
  [(0xC93, 0x00010404#32)]

/-- An idle unit with one word offered. -/
def idleWith (c : CmdWord) : State := { State.reset with table := tableFix, offered := [c] }

/-- An `UNPACK` in progress: program P2 after step 1, with the registers given. -/
def seqWith (version : BitVec 8) (lvl tidx : BitVec 2) (rep tc dc : BitVec 8) (lastf : Bool) : State :=
  { State.reset with
    table := tableFix, st := .seq, ver := version, lvl := lvl, tidx := tidx, rep := rep, tc := tc,
    dc := dc, lastf := lastf }

/-- P2 after step 1. -/
def p2one : State := seqWith 5#8 2#2 0#2 2#8 33#8 15#8 false

/-- P2 after step 3. -/
def p2three : State := seqWith 5#8 2#2 0#2 0#8 33#8 15#8 false

/-- P2 after step 6. -/
def p2six : State := seqWith 5#8 2#2 1#2 0#8 34#8 16#8 true

/-- One word to deliver. -/
def oneWith (w : RspWord) : State := { State.reset with table := tableFix, st := .one, rw := w }

/-- The same state with the given pins at the next edge. -/
def atEdge (e : Edge) (s : State) : State := { s with edges := [e] }

/-- An edge at which the consumer is not ready, and one at which the unit is reset. -/
def stall : Edge := { rst := false, offer := true, rspReady := false }

/-- An edge with `rst = 1`. -/
def resetEdge : Edge := { rst := true, offer := true, rspReady := true }

/-- What a field of the state is after one step; `none` if the step does not answer. -/
def after {α : Type} (f : State → α) (s : State) : Option α :=
  match step s with
  | .next t => some (f t)
  | .fault _ => none
  | .refused _ => none

/-! ### What is ill formed is refused -/

/-- 00_scope.md R7, R8: a generator of bit-length 15 (90_conflicts.md C2), one of bit-length 12, a mask
with bit 15 set. -/
theorem test_ill_formed_config :
    Config.wf { g15 := 0x4537, g18 := 0x1F25, fmtMask := 0x5412 } = false ∧
    Config.wf { g15 := 0x537, g18 := 0xF25, fmtMask := 0x5412 } = false ∧
    Config.wf { g15 := 0x537, g18 := 0x1F25, fmtMask := 0x8000 } = false ∧
    Config.wf Config.decided = true := by decide

/-- 00_scope.md R6, R7: a shift that is not the generator's, and an entry size, a field width, a word width
the spec draws no words for. -/
theorem test_ill_formed_layout :
    Config.wf { Config.decided with fmtShift := 9 } = false ∧
    Config.wf { Config.decided with verShift := 13 } = false ∧
    Config.wf { Config.decided with fmtRw := 16 } = false ∧
    Config.wf { Config.decided with maxTriples := 3 } = false ∧
    Config.wf { Config.decided with rcW := 7 } = false ∧
    Config.wf { Config.decided with cmdW := 32 } = false := by decide

/-- Section 2.7: an ill-formed word of each range, at both ends. -/
theorem test_ill_formed_words :
    [0x0800#16, 0x3FFF#16, 0x4020#16, 0x7FFF#16, 0x8040#16, 0xBFFF#16, 0xC000#16, 0xFFFF#16].all
      (fun c => !wellFormedWord c) = true ∧
    [0x0000#16, 0x07FF#16, 0x4000#16, 0x401F#16, 0x8000#16, 0x803F#16].all wellFormedWord = true := by
  decide

/-- A table out of order, one with a repeated address, one beyond the space, one listing a zero word. -/
theorem test_ill_formed_memory :
    Memory.wf [(2, 1#32), (1, 1#32)] = false ∧ Memory.wf [(1, 1#32), (1, 2#32)] = false ∧
    Memory.wf [(4096, 1#32)] = false ∧ Memory.wf [(1, 0#32)] = false ∧
    Memory.wf tableFix = true := by decide

/-- Ill-formed constants stop the unit (41_bch.md R124). -/
theorem test_ill_formed_config_is_not_run :
    after State.st { idleWith 0x4005#16 with
      cfg := { g15 := 0x4537, g18 := 0x1F25, fmtMask := 0x5412 } } = none := by decide

/-! ### Decoding -/

/-- The decode vectors of section 2.7, the words written out bit by bit from 30_encoding.md R62 to R64. -/
theorem test_decode_words :
    decode 0b0000000000000000#16 = .instr (.unpack 0#8 0#3) ∧
    decode 0b0000001100101000#16 = .instr (.unpack 40#8 3#3) ∧
    decode 0b0000010000101000#16 = .instr (.unpack 40#8 4#3) ∧
    decode 0b0000011111111111#16 = .instr (.unpack 255#8 7#3) ∧
    decode 0b0100000000000000#16 = .instr (.fmt 0#5) ∧
    decode 0b0100000000000101#16 = .instr (.fmt 5#5) ∧
    decode 0b0100000000011111#16 = .instr (.fmt 31#5) ∧
    decode 0b1000000000000000#16 = .instr (.ver 0#6) ∧
    decode 0b1000000000000111#16 = .instr (.ver 7#6) ∧
    decode 0b1000000000111111#16 = .instr (.ver 63#6) := by decide

/-- The illegal words of section 2.7. -/
theorem test_decode_illegal :
    [0x0800#16, 0x2001#16, 0x3FFF#16, 0x4020#16, 0x4105#16, 0x7FFF#16, 0x8040#16, 0xBFFF#16, 0xC000#16,
      0xFFFF#16].all (fun c => decode c = .illegal c) = true := by decide

/-- The encoder gives those words (30_encoding.md R76's examples among them). -/
theorem test_encode_words :
    encode (.unpack 5#8 2#3) = 0x0205#16 ∧ encode (.unpack 1#8 5#3) = 0x0501#16 ∧
    encode (.fmt 5#5) = 0x4005#16 ∧ encode (.ver 7#6) = 0x8007#16 ∧
    assemble (.unpack 5#8 .Q) = 0x0205#16 := by decide

/-- The words the host reads are numbered from bit 0 up. -/
theorem test_decodeTableWord :
    decodeTableWord 16 0x401F = some (.fmt 31#5) ∧ decodeTableWord 16 0xC000 = none ∧
    decodeTableWord 16 0x0328 = some (.unpack 40#8 3#3) := by decide

/-! ### Words and arithmetic -/

/-- The response words of section 2.7. -/
theorem test_response_words :
    valueWord 0x3FB85#18 = 0x0003FB85#32 ∧ descWord 33#8 15#8 = 0x4000210F#32 ∧
    descWord 255#8 255#8 = 0x4000FFFF#32 ∧ descWord 0#8 0#8 = 0x40000000#32 ∧
    endWord = 0x80000000#32 ∧ errWord 0#3 7#16 = 0xC0000007#32 ∧
    errWord 2#3 255#16 = 0xC20000FF#32 ∧ errWord 4#3 0xFFFF#16 = 0xC400FFFF#32 := by decide

/-- `bitlen`, section 2.1. -/
theorem test_bitlen :
    [0, 1, 2, 3, 0x3FF, 0x400, 0x537, 0x7FF, 0xFFF, 0x1000, 0x1F25, 0x5412, 0x7C00, 0x3F000,
      0x3FFFF].map bitlen = [0, 1, 2, 2, 10, 11, 11, 11, 12, 13, 13, 15, 15, 18, 18] := by decide

/-- `bch_encode` with `G = 0b1011`, section 2.4. -/
theorem test_bchEncode_generic :
    (List.range 16).map (fun d => bchEncode d 0b1011 0) =
      [0b0, 0b1011, 0b10110, 0b11101, 0b100111, 0b101100, 0b110001, 0b111010] ++
      [0b1000101, 0b1001110, 0b1010011, 0b1011000, 0b1100010, 0b1101001, 0b1110100, 0b1111111] := by
  decide

/-- Division traces of section 2.4: one pass at a time, and the two that need the most passes. -/
theorem test_division_traces :
    bchLoop 0x537 1 0x7C00 = 0x2F70 ∧ bchLoop 0x537 2 0x7C00 = 0x06C8 ∧
    bchLoop 0x537 3 0x7C00 = 0x03FF ∧ bchRem 0x6000 0x537 = 0x14D ∧
    bchLoop 0x1F25 1 0x3F000 = 0x014A0 ∧ bchRem 0x2B000 0x1F25 = 0x223 := by decide

/-- All 32 format words, section 2.2. -/
theorem test_fmt_table :
    (List.range 32).map (fun d => (fmtValue Config.decided (BitVec.ofNat 5 d)).toNat) =
      [0x5412, 0x5125, 0x5E7C, 0x5B4B, 0x45F9, 0x40CE, 0x4F97, 0x4AA0] ++
      [0x77C4, 0x72F3, 0x7DAA, 0x789D, 0x662F, 0x6318, 0x6C41, 0x6976] ++
      [0x1689, 0x13BE, 0x1CE7, 0x19D0, 0x762, 0x255, 0xD0C, 0x83B] ++
      [0x355F, 0x3068, 0x3F31, 0x3A06, 0x24B4, 0x2183, 0x2EDA, 0x2BED] := by
  decide

/-- All 64 version words, section 2.3. -/
theorem test_ver_table :
    (List.range 64).map (fun d => (verValue Config.decided (BitVec.ofNat 6 d)).toNat) =
      [0x0, 0x1F25, 0x216F, 0x3E4A, 0x42DE, 0x5DFB, 0x63B1, 0x7C94] ++
      [0x85BC, 0x9A99, 0xA4D3, 0xBBF6, 0xC762, 0xD847, 0xE60D, 0xF928] ++
      [0x10B78, 0x1145D, 0x12A17, 0x13532, 0x149A6, 0x15683, 0x168C9, 0x177EC] ++
      [0x18EC4, 0x191E1, 0x1AFAB, 0x1B08E, 0x1CC1A, 0x1D33F, 0x1ED75, 0x1F250] ++
      [0x209D5, 0x216F0, 0x228BA, 0x2379F, 0x24B0B, 0x2542E, 0x26A64, 0x27541] ++
      [0x28C69, 0x2934C, 0x2AD06, 0x2B223, 0x2CEB7, 0x2D192, 0x2EFD8, 0x2F0FD] ++
      [0x302AD, 0x31D88, 0x323C2, 0x33CE7, 0x34073, 0x35F56, 0x3611C, 0x37E39] ++
      [0x38711, 0x39834, 0x3A67E, 0x3B95B, 0x3C5CF, 0x3DAEA, 0x3E4A0, 0x3FB85] := by
  decide

/-- `entry` on the fixture, section 2.6: two triples; a zero repeat; four triples, the fourth unmarked;
none. -/
theorem test_entry :
    entry Config.decided tableFix 5#8 2#2 = some [⟨2#8, 33#8, 15#8⟩, ⟨2#8, 34#8, 16#8⟩] ∧
    entry Config.decided tableFix 200#8 3#2 = some [⟨0#8, 10#8, 5#8⟩, ⟨2#8, 7#8, 9#8⟩] ∧
    entry Config.decided tableFix 201#8 0#2 =
      some [⟨1#8, 1#8, 1#8⟩, ⟨1#8, 2#8, 2#8⟩, ⟨1#8, 3#8, 3#8⟩, ⟨1#8, 4#8, 4#8⟩] ∧
    entry Config.decided tableFix 201#8 1#2 = none := by decide

/-- Whole responses, sections 2.6 and 2.7 (R97, R99, R157, R158 among them). -/
theorem test_responses :
    response Config.decided tableFix 0x0205#16 =
      [0x4000210F#32, 0x4000210F#32, 0x40002210#32, 0x40002210#32, 0x80000000#32] ∧
    response Config.decided tableFix 0x03C8#16 = [0x40000709#32, 0x40000709#32, 0x80000000#32] ∧
    response Config.decided tableFix 0x0700#16 = [0xC0000007#32] ∧
    response Config.decided tableFix 0x00C8#16 = [0xC20000C8#32] ∧
    response Config.decided tableFix 0x8040#16 = [0xC4008040#32] := by decide

/-! ### One step each -/

/-- P1: `ACCEPT(0x401F)`. -/
theorem test_fmt_step :
    after (fun t => (t.st, t.rw, t.offered, t.sent)) (idleWith 0x401F#16) =
      some (.one, 0x00002BED#32, [], []) := by decide

/-- P1: `ACCEPT(0x8007)`. -/
theorem test_ver_step :
    after (fun t => (t.st, t.rw)) (idleWith 0x8007#16) = some (.one, 0x00007C94#32) := by decide

/-- P2 step 1: `ACCEPT(0x0205)`. -/
theorem test_unpack_step : after id (idleWith 0x0205#16) = some p2one := by decide

/-- P5: the level wins over the version. -/
theorem test_unpack_error_step :
    after (fun t => (t.st, t.rw)) (idleWith 0x0700#16) = some (.one, 0xC0000007#32) := by decide

/-- P3: an illegal word. -/
theorem test_illegal_step :
    after (fun t => (t.st, t.rw)) (idleWith 0x4020#16) = some (.one, 0xC4004020#32) := by decide

/-- P2 step 2: `EMIT`. -/
theorem test_emit_step :
    after (fun t => (t.st, t.rep, t.sent)) p2one = some (.seq, 1#8, [0x4000210F#32]) := by decide

/-- P2 step 4: `ADVANCE` to the next triple. -/
theorem test_advance_step :
    after id p2three = some (seqWith 5#8 2#2 1#2 2#8 34#8 16#8 true) := by decide

/-- P6 step 7: the fourth triple is the last though its word is not marked. -/
theorem test_advance_fourth :
    after (fun t => (t.tidx, t.tc, t.lastf)) (seqWith 201#8 0#2 2#2 0#8 3#8 3#8 false) =
      some (3#2, 4#8, true) := by decide

/-- P2 step 7: `ADVANCE` after the last triple. -/
theorem test_advance_end :
    after (fun t => (t.st, t.rw, t.sent)) p2six = some (.one, 0x80000000#32, []) := by decide

/-- P2 step 8: `DELIVER`. -/
theorem test_deliver_step :
    after (fun t => (t.st, t.sent)) (oneWith endWord) = some (.idle, [0x80000000#32]) := by decide

/-- A consumer that is not ready: the unit waits (70_reset_and_hazards.md R185). -/
theorem test_stall : after id (atEdge stall p2one) = some p2one := by decide

/-- Reset in mid-command: idle, nothing sent (70_reset_and_hazards.md R181). -/
theorem test_reset_edge :
    after (fun t => (t.st, t.sent, t.offered)) (atEdge resetEdge p2one) = some (.idle, [], []) := by
  decide

/-- A word placed for the next edge runs as the first instruction after reset. -/
theorem test_withFetchWord :
    after (fun t => (t.st, t.rw)) (State.reset.withFetchWord 16 0x4005) =
      some (.one, 0x000040CE#32) := by decide

/-! ### The statements' hypotheses are met -/

/-- A state after a step that answers. -/
theorem step_of_after {s t : State} (h : after id s = some t) : step s = .next t := by
  unfold after at h
  split at h
  · cases h; assumption
  · cases h
  · cases h

theorem idleWith_accepts (c : CmdWord) : (idleWith c).Accepts c := ⟨rfl, rfl, rfl, rfl⟩

theorem idleWith_inv (c : CmdWord) : (idleWith c).Inv :=
  ⟨show Config.decided.wf = true by decide, show Memory.wf tableFix = true by decide, nofun, nofun⟩

theorem p2one_inv : p2one.Inv :=
  ⟨by decide, by decide, nofun, fun _ => ⟨by decide, by decide, by decide, by decide, by decide, by decide⟩⟩

theorem p2three_inv : p2three.Inv :=
  ⟨by decide, by decide, nofun, fun _ => ⟨by decide, by decide, by decide, by decide, by decide, by decide⟩⟩

theorem p2six_inv : p2six.Inv :=
  ⟨by decide, by decide, nofun, fun _ => ⟨by decide, by decide, by decide, by decide, by decide, by decide⟩⟩

theorem witness_ResetEdgeLeavesIdle :
    (atEdge resetEdge p2one).cfg.wf = true ∧ (atEdge resetEdge p2one).edge.rst = true ∧
    ((atEdge resetEdge p2one).tick.applyReset).edge.rst = false := by decide

theorem witness_ResetAbandonsTheCommand :
    (atEdge resetEdge p2one).cfg.wf = true ∧ (atEdge resetEdge p2one).edge.rst = true ∧
    (atEdge resetEdge p2one).tick.applyReset.NoReset ∧
    runSteps 0 (atEdge resetEdge p2one).tick.applyReset =
      .next (atEdge resetEdge p2one).tick.applyReset :=
  ⟨by decide, by decide, nofun, rfl⟩

theorem witness_OutputsAreFunctionsOfState :
    (oneWith endWord).st = .one ∧ (p2one.st = .seq ∧ p2one.rep ≠ 0#8) ∧
    (p2three.st = .seq ∧ p2three.rep = 0#8 ∧ p2three.lastf = false) ∧
    (idleWith 0x07FF#16).Accepts 0x07FF#16 ∧ decode 0x07FF#16 = .instr (.unpack 255#8 7#3) :=
  ⟨by decide, by decide, by decide, idleWith_accepts _, by decide⟩

theorem witness_EdgeTakesTheEnabledStep :
    ((atEdge resetEdge p2one).cfg.wf = true ∧ (atEdge resetEdge p2one).edge.rst = true) ∧
    (idleWith 0xFFFF#16).Accepts 0xFFFF#16 ∧
    (p2one.edge.rst = false ∧ p2one.st = .seq ∧ p2one.rep ≠ 0#8 ∧ p2one.edge.rspReady = true) ∧
    (p2six.edge.rst = false ∧ p2six.st = .seq ∧ p2six.rep = 0#8) ∧
    ((oneWith endWord).edge.rst = false ∧ (oneWith endWord).st = .one ∧
      (oneWith endWord).edge.rspReady = true) ∧
    ((atEdge stall p2one).edge.rst = false ∧ (atEdge stall p2one).cmdTransfer = false ∧
      (atEdge stall p2one).rspTransfer = false ∧
      ¬ ((atEdge stall p2one).st = .seq ∧ (atEdge stall p2one).rep = 0#8)) :=
  ⟨by decide, idleWith_accepts _, by decide, by decide, by decide, by decide⟩

theorem witness_CommandMovesOnlyAtHandshake :
    (step (idleWith 0x0205#16) = .next p2one ∧ (idleWith 0x0205#16).cmdTransfer = true) ∧
    (step (atEdge stall p2one) = .next p2one ∧ (atEdge stall p2one).cmdTransfer = false) :=
  ⟨⟨step_of_after test_unpack_step, by decide⟩, ⟨step_of_after test_stall, by decide⟩⟩

theorem witness_ResponseMovesOnlyAtHandshake :
    ((∃ t, step p2one = .next t) ∧ p2one.rspTransfer = true) ∧
    (step (atEdge stall p2one) = .next p2one ∧ (atEdge stall p2one).rspTransfer = false ∧
      (atEdge stall p2one).rspValid = true ∧ (atEdge stall p2one).edge.rspReady = false ∧
      p2one.edge.rst = false) :=
  ⟨⟨⟨_, step_of_after rfl⟩, by decide⟩, step_of_after test_stall, by decide⟩

theorem witness_UnitWaitsForTheConsumer :
    (atEdge stall p2one).cfg.wf = true ∧
    ((atEdge stall p2one).st = .one ∨ ((atEdge stall p2one).st = .seq ∧ (atEdge stall p2one).rep ≠ 0#8)) ∧
    1 ≤ (atEdge stall p2one).edges.length ∧
    (∀ e ∈ (atEdge stall p2one).edges.take 1, e.rst = false ∧ e.rspReady = false) ∧
    ((atEdge stall (oneWith endWord)).st = .one ∧
      ∀ e ∈ (atEdge stall (oneWith endWord)).edges.take 1, e.rst = false ∧ e.rspReady = false) := by
  decide

theorem witness_OnlyWellFormedConstantsRun :
    let c : Config := { g15 := 0x4537, g18 := 0x1F25, fmtMask := 0x5412 }
    let d : Config := { Config.decided with maxTriples := 3 }
    ¬ (bitlen c.g15 = 11 ∧ bitlen c.g18 = 13 ∧ c.fmtMask < 2 ^ 15 ∧ c.toLayout = Layout.decided) ∧
    ¬ (bitlen d.g15 = 11 ∧ bitlen d.g18 = 13 ∧ d.fmtMask < 2 ^ 15 ∧ d.toLayout = Layout.decided) := by
  decide

theorem witness_StepRunsTheDecodedInstruction :
    (idleWith 0x803F#16).cfg.wf = true ∧ (idleWith 0x803F#16).Accepts 0x803F#16 ∧
    decode 0x803F#16 = .instr (.ver 63#6) ∧ (Instr.ver 63#6).WellFormed = true :=
  ⟨by decide, idleWith_accepts _, by decide, by decide⟩

theorem witness_PlacedWordRunsNext :
    p2one.cfg.wf = true ∧ decodeTableWord 16 0x4005 = some (.fmt 5#5) := by decide

theorem witness_DecodeInvertsEncode :
    (Instr.unpack 255#8 7#3).WellFormed = true ∧ (Instr.fmt 31#5).WellFormed = true ∧
    (Instr.ver 63#6).WellFormed = true := by decide

theorem witness_EncodeInvertsDecode : decode 0x07FF#16 = .instr (.unpack 255#8 7#3) := by decide

theorem witness_DecodeFollowsTheOpcodeTable : fmtRow ∈ opcodeTable := by decide

theorem witness_IllegalRangesAreAnswered :
    (idleWith 0x0800#16).cfg.wf = true ∧
    ∀ c ∈ [0x0800#16, 0x3FFF#16, 0x4020#16, 0x7FFF#16, 0x8040#16, 0xBFFF#16, 0xC000#16, 0xFFFF#16],
      (idleWith c).Accepts c ∧
      ((0x0800 ≤ c.toNat ∧ c.toNat ≤ 0x3FFF) ∨ (0x4020 ≤ c.toNat ∧ c.toNat ≤ 0x7FFF) ∨
        (0x8040 ≤ c.toNat ∧ c.toNat ≤ 0xBFFF) ∨ 0xC000 ≤ c.toNat) := by
  refine ⟨by decide, fun c hc => ⟨idleWith_accepts c, ?_⟩⟩
  simp only [List.mem_cons, List.not_mem_nil, or_false] at hc
  rcases hc with rfl | rfl | rfl | rfl | rfl | rfl | rfl | rfl <;> decide

theorem witness_OperandsAreTheFields :
    decode 0x07FF#16 = .instr (.unpack 255#8 7#3) ∧ decode 0x401F#16 = .instr (.fmt 31#5) ∧
    decode 0x803F#16 = .instr (.ver 63#6) ∧ 31 < 0x4000 ∧ 63 < 0x4000 ∧ 0x3FFF < 0x4000 := by decide

theorem witness_EveryTableHasOneForm :
    Memory.wf [] = true ∧ ∀ a, Memory.read [] a = (fun _ => 0#32 : TblAddr → TblWord) a :=
  ⟨rfl, fun _ => rfl⟩

theorem witness_EntryIsTheMarkedTriples :
    Config.decided.maxTriples = 4 ∧
    entry Config.decided tableFix 201#8 0#2 =
      some [⟨1#8, 1#8, 1#8⟩, ⟨1#8, 2#8, 2#8⟩, ⟨1#8, 3#8, 3#8⟩, ⟨1#8, 4#8, 4#8⟩] ∧
    entry Config.decided tableFix 1#8 0#2 = some [⟨1#8, 26#8, 19#8⟩] := by decide

/-- Two tables that differ in ignored bits only: bits 29:24 of word 0. -/
theorem witness_IgnoredTableBits :
    let m : Memory := [(0, 0xC0010203#32)]
    let m' : Memory := [(0, 0xFF010203#32)]
    Config.decided.maxTriples = 4 ∧
    (∀ (version : BitVec 8) (lvl : BitVec 2),
      presentMark (m.read (tblAddr version lvl 0#2)) = presentMark (m'.read (tblAddr version lvl 0#2))) ∧
    (∀ (version : BitVec 8) (lvl i : BitVec 2),
      presentMark (m.read (tblAddr version lvl 0#2)) = true →
      (∀ j, j < i → lastMark (m.read (tblAddr version lvl j)) = false) →
      tripleOf (m.read (tblAddr version lvl i)) = tripleOf (m'.read (tblAddr version lvl i)) ∧
      (i ≠ 3#2 →
        lastMark (m.read (tblAddr version lvl i)) = lastMark (m'.read (tblAddr version lvl i)))) ∧
    m ≠ m' := by
  have h : ∀ a : TblAddr,
      presentMark (Memory.read [(0, 0xC0010203#32)] a) = presentMark (Memory.read [(0, 0xFF010203#32)] a) ∧
      tripleOf (Memory.read [(0, 0xC0010203#32)] a) = tripleOf (Memory.read [(0, 0xFF010203#32)] a) ∧
      lastMark (Memory.read [(0, 0xC0010203#32)] a) = lastMark (Memory.read [(0, 0xFF010203#32)] a) := by
    intro a
    by_cases ha : 0 = a.toNat
    · simp only [Memory.read, if_pos ha]; decide
    · simp only [Memory.read, if_neg ha, and_self]
  exact ⟨rfl, fun v l => (h _).1, fun v l i _ _ => ⟨(h _).2.1, fun _ => (h _).2.2⟩, by decide⟩

theorem witness_StepReadsOneTableWord :
    (∀ a, (idleWith 0x0205#16).tableReadAt = some a →
      Memory.read [(0x058, 0x8002210F#32)] a = (idleWith 0x0205#16).table.read a) ∧
    step (idleWith 0x0205#16) = .next p2one ∧
    (idleWith 0x0405#16).Accepts 0x0405#16 ∧ (idleWith 0x03FF#16).Accepts 0x03FF#16 := by
  refine ⟨fun a h => ?_, step_of_after test_unpack_step, idleWith_accepts _, idleWith_accepts _⟩
  have ha : a = 0x058#12 := by
    have e : (idleWith 0x0205#16).tableReadAt = some 0x058#12 := by decide
    rw [e] at h
    exact (Option.some.inj h).symm
  subst ha
  decide

theorem witness_NoRunWritesTableOrConstants : runSteps 1 (idleWith 0x0205#16) = .next p2one := by
  rw [runSteps_succ (step_of_after test_unpack_step)]; rfl

theorem witness_UnpackAccept :
    (idleWith 0x03C8#16).cfg.maxTriples = 4 ∧ 4 ≤ (4#3).toNat ∧ 4 ≤ (7#3).toNat ∧
    ((3#3).toNat < 4 ∧ (tableFix.read (BitVec.ofNat 12 (255 * 16 + 3 * 4))).toNat < 2 ^ 31) ∧
    ((0#3).toNat < 4 ∧ (tableFix.read (BitVec.ofNat 12 (0 * 16 + 0 * 4))).toNat < 2 ^ 31) ∧
    ((3#3).toNat < 4 ∧ 2 ^ 31 ≤ (tableFix.read (BitVec.ofNat 12 (200 * 16 + 3 * 4))).toNat) := by decide

theorem witness_UnpackUnknownLevel : 4 ≤ (4#3).toNat ∧ 4 ≤ (7#3).toNat := by decide

theorem witness_UnpackUnknownVersion : (0#3).toNat < 4 ∧ (3#3).toNat < 4 := by decide

theorem witness_EmitStep :
    p2one.cfg.wf = true ∧ p2one.edge.rst = false ∧ p2one.st = .seq ∧ p2one.rep ≠ 0#8 ∧
    p2one.edge.rspReady = true := by decide

theorem witness_AdvanceStep :
    (p2six.cfg.wf = true ∧ p2six.edge.rst = false ∧ p2six.st = .seq ∧ p2six.rep = 0#8 ∧
      p2six.lastf = true) ∧
    (p2three.cfg.wf = true ∧ p2three.edge.rst = false ∧ p2three.st = .seq ∧ p2three.rep = 0#8 ∧
      p2three.lastf = false ∧ p2three.tidx.toNat ≤ 2) ∧
    (seqWith 201#8 0#2 2#2 0#8 3#8 3#8 false).tidx.toNat ≤ 2 := by decide

theorem witness_DeliverStep :
    (oneWith endWord).cfg.wf = true ∧ (oneWith endWord).edge.rst = false ∧ (oneWith endWord).st = .one ∧
    (oneWith endWord).edge.rspReady = true := by decide

theorem witness_TripleIndexOnlyGrows :
    (p2three.Inv ∧ step p2three = .next (seqWith 5#8 2#2 1#2 2#8 34#8 16#8 true) ∧ p2three.st = .seq) ∧
    (p2one.Inv ∧ ∃ t, step p2one = .next t ∧ t.st = .seq) :=
  ⟨⟨p2three_inv, step_of_after test_advance_step, rfl⟩, p2one_inv, _, step_of_after rfl, rfl⟩

/-- Constants other than the decided ones that meet the constraints. -/
theorem witness_FmtAccept :
    (idleWith 0x401F#16).cfg.wf = true ∧
    Config.wf { g15 := 0x7FF, g18 := 0x1000, fmtMask := 0x7FFF } = true := by decide

theorem witness_VerAccept :
    (idleWith 0x803F#16).cfg.wf = true ∧
    Config.wf { g15 := 0x400, g18 := 0x1FFF, fmtMask := 0 } = true := by decide

theorem witness_BitlenIsHighestBitPlusOne : 0 < 1 ∧ bitlen 1 ≤ 1 := by decide

theorem witness_BchRemIsTheRemainder :
    0x537 ≠ 0 ∧ bitlen 0x0DC < bitlen 0x537 ∧ IsMultiple 0x537 (0x1400 ^^^ 0x0DC) :=
  ⟨by decide, by decide, [2], by decide⟩

theorem witness_BchLoopTerminates :
    0x537 ≠ 0 ∧ bitlen 0x7C00 + 1 - bitlen 0x537 ≤ 5 ∧ bitlen 0x3FF < bitlen 0x537 ∧
    Config.decided.wf = true := by decide

theorem witness_BchCodeIsSystematic : 0x1F25 ≠ 0 ∧ 1 ≠ 0 := by decide

theorem witness_BchCodeIsLinear :
    0x1F25 ≠ 0 ∧ Config.decided.wf = true ∧ fmtValue Config.decided 3#5 = fmtValue Config.decided 3#5 := by
  decide

theorem witness_DecidedCodeDistances : (0#5 : BitVec 5) ≠ 31#5 ∧ (0#6 : BitVec 6) ≠ 63#6 := by decide

theorem witness_AcceptFrame :
    (∃ t, exec (.fmt 5#5) p2one = .next t) ∧ (∃ t, exec (.unpack 5#8 2#3) p2one = .next t ∧ t.st = .seq) ∧
    (∃ t, exec (.unpack 5#8 7#3) p2one = .next t ∧ t.st = .one) ∧
    (∃ t, exec (.ver 5#6) p2one = .next t) :=
  ⟨⟨_, rfl⟩, ⟨_, rfl, rfl⟩, ⟨_, rfl, rfl⟩, ⟨_, rfl⟩⟩

theorem witness_ResponseShapes :
    decode 0x4000#16 = .instr (.fmt 0#5) ∧ decode 0x8000#16 = .instr (.ver 0#6) := by decide

theorem witness_ErrorsCarryTheOffendingValue :
    errWord 0#3 4#16 ∈ response Config.decided tableFix 0x0405#16 ∧
    errWord 2#3 255#16 ∈ response Config.decided tableFix 0x03FF#16 ∧
    errWord 4#3 0xFFFF#16 ∈ response Config.decided tableFix 0xFFFF#16 := by decide

theorem witness_ErrorsOnlyAtAcceptance :
    (∃ t, step p2six = .next t ∧ t.rw ≠ p2six.rw) ∧ p2six.edge.rst = false ∧ p2six.st ≠ .idle :=
  ⟨⟨_, step_of_after rfl, by decide⟩, by decide, by decide⟩

theorem witness_StepKeepsInvariant :
    (p2three.Inv ∧ step p2three = .next (seqWith 5#8 2#2 1#2 2#8 34#8 16#8 true)) ∧
    ((idleWith 0x0205#16).Inv ∧ step (idleWith 0x0205#16) = .next p2one) :=
  ⟨⟨p2three_inv, step_of_after test_advance_step⟩, idleWith_inv _, step_of_after test_unpack_step⟩

/-- Two different states that differ in dead registers only. -/
theorem witness_DeadRegistersAreNeverRead :
    (idleWith 0x0205#16).LiveEq { idleWith 0x0205#16 with rw := 7#32, rep := 9#8, fresh := 3 } ∧
    (idleWith 0x0205#16) ≠ { idleWith 0x0205#16 with rw := 7#32, rep := 9#8, fresh := 3 } ∧
    p2one.LiveEq { p2one with rw := 7#32 } ∧ p2one.rspValid = true ∧
    (∃ u, step p2one = .next u) ∧
    (let ill : Config := { g15 := 0, g18 := 0, fmtMask := 0 };
      ({ p2one with cfg := ill } : State).LiveEq { p2one with cfg := ill, rw := 7#32 } ∧
      step { p2one with cfg := ill } = .refused .illFormedConfig) :=
  ⟨⟨rfl, rfl, rfl, rfl, rfl, rfl, nofun, nofun⟩, by decide,
    ⟨rfl, rfl, rfl, rfl, rfl, rfl, nofun, fun _ => ⟨rfl, rfl, rfl, rfl, rfl, rfl, rfl⟩⟩, by decide,
    ⟨_, step_of_after rfl⟩,
    ⟨rfl, rfl, rfl, rfl, rfl, rfl, nofun, fun _ => ⟨rfl, rfl, rfl, rfl, rfl, rfl, rfl⟩⟩, rfl⟩

theorem witness_StepsImplementTheResponses :
    p2six.Inv ∧ p2six.edge.rst = false ∧ ∃ t, step p2six = .next t :=
  ⟨p2six_inv, by decide, _, step_of_after rfl⟩

theorem witness_UnpackRespondsWithTheExpansion :
    (4 ≤ (4#3).toNat ∧ 4 ≤ (7#3).toNat) ∧
    ((0#3).toNat < 4 ∧ entry Config.decided tableFix 0#8 (rowIndex 0#3) = none) ∧
    ((3#3).toNat < 4 ∧ entry Config.decided tableFix 255#8 (rowIndex 3#3) = none) ∧
    ((3#3).toNat < 4 ∧
      entry Config.decided tableFix 200#8 (rowIndex 3#3) = some [⟨0#8, 10#8, 5#8⟩, ⟨2#8, 7#8, 9#8⟩]) ∧
    (entry Config.decided [(0, 0xC0000101#32)] 0#8 (rowIndex 0#3) = some [⟨0#8, 1#8, 1#8⟩] ∧
      ∀ t ∈ [(⟨0#8, 1#8, 1#8⟩ : Triple)], t.rc = 0#8) ∧
    entry Config.decided tableFix 5#8 2#2 = some [⟨2#8, 33#8, 15#8⟩, ⟨2#8, 34#8, 16#8⟩] := by decide

theorem witness_EachCommandSendsItsResponse :
    (idleWith 0x4005#16).Accepts 0x4005#16 ∧ (idleWith 0x4005#16).NoReset ∧
    step (idleWith 0x4005#16) = .next (oneWith 0x40CE#32) ∧
    runSteps 1 (oneWith 0x40CE#32) =
      .next { oneWith 0x40CE#32 with st := .idle, sent := [0x40CE#32] } := by
  refine ⟨idleWith_accepts _, nofun, step_of_after (by decide), ?_⟩
  rw [runSteps_succ (step_of_after
    (t := { oneWith 0x40CE#32 with st := .idle, sent := [0x40CE#32] }) (by decide))]
  rfl

theorem witness_EveryRunDeliversItsResponses :
    (atEdge stall (idleWith 0x0205#16)).Inv ∧ (atEdge stall (idleWith 0x0205#16)).NoReset :=
  ⟨⟨by decide, by decide, nofun, nofun⟩, by unfold State.NoReset; decide⟩

end Sys2Proof.Tests
end

section
/-! SUPPORT. When a step answers, which step an accepted word takes, and the placed word: what the
statements about the scope of the model (00_scope.md) need, stated for later proofs too. -/

namespace Sys2Proof.Machine

/-! ### The step and the configuration -/

/-- A unit with a well-formed configuration takes its clock edge. -/
theorem step_of_wf {s : State} (h : s.cfg.wf = true) : step s = clockEdge s.edge s.tick := by
  simp [step, nextEdge, h]

/-- A unit with an ill-formed configuration is refused (41_bch.md R124; log 4, 23). -/
theorem step_of_not_wf {s : State} (h : ¬ s.cfg.wf = true) : step s = .refused .illFormedConfig := by
  simp [step, nextEdge, h]

/-- Accepting a command word always answers: every error is a response (60_exceptions.md R154). -/
theorem accept_answers (c : CmdWord) (s : State) : ∃ t, accept c s = .next t := by
  rcases accept_cases c s with ⟨w, h⟩ | ⟨version, level, -, -, -, h⟩
  · exact ⟨_, h⟩
  · exact ⟨_, h⟩

/-- Every clock edge answers, whatever the pins and the phase (10_state.md R27). -/
theorem clockEdge_answers (e : Edge) (s : State) : ∃ t, clockEdge e s = .next t := by
  unfold clockEdge
  split
  · exact ⟨_, rfl⟩
  · split
    · split
      · exact accept_answers _ _
      · exact ⟨_, rfl⟩
    · split <;> exact ⟨_, rfl⟩
    · split
      · exact ⟨_, rfl⟩
      · split <;> exact ⟨_, rfl⟩

/-- A step answers exactly when the configuration is well formed. -/
theorem step_answers_iff_wf (s : State) : (∃ t, step s = .next t) ↔ s.cfg.wf = true := by
  constructor
  · rintro ⟨t, h⟩
    exact (step_cases h).1
  · intro h
    rw [step_of_wf h]
    exact clockEdge_answers _ _

/-! ### The accepted word -/

/-- The step at which a word is accepted is `ACCEPT` of that word (10_state.md R27). -/
theorem step_of_accepts {s : State} {c : CmdWord} (hc : s.cfg.wf = true) (h : s.Accepts c) :
    step s = accept c s.tick.takeCommand := by
  obtain ⟨rest, ho⟩ : ∃ rest, s.offered = c :: rest := ⟨_, h.offered_eq⟩
  simp [step_of_wf hc, clockEdge, h.noReset, h.idle, h.offer, ho]

/-- Accepting a word that decodes is its instruction's effect. -/
theorem accept_of_decode {c : CmdWord} {i : Instr} (h : decode c = .instr i) (s : State) :
    accept c s = exec i s := by
  simp [accept, h]

/-- The decoder's reading of the low bits of a word is `decode` of the command word they make. -/
theorem decodeTableWord_eq_some {nbits w : Nat} {i : Instr} :
    decodeTableWord nbits w = some i ↔ decode (BitVec.ofNat 16 (w % 2 ^ nbits)) = .instr i := by
  unfold decodeTableWord
  cases decode (BitVec.ofNat 16 (w % 2 ^ nbits)) <;> simp

/-! ### The placed word -/

/-- A word placed for the next edge is accepted there. -/
theorem State.placeCommand_accepts (c : CmdWord) (s : State) : (s.placeCommand c).Accepts c :=
  ⟨rfl, rfl, rfl, rfl⟩

/-- Once it is taken, the placed word has left nothing behind but the idle phase it was placed in. -/
theorem State.placeCommand_tick_takeCommand (c : CmdWord) (s : State) :
    (s.placeCommand c).tick.takeCommand = { s with st := .idle } := rfl

/-- The step after placing a word accepts it in the idle unit. -/
theorem step_placeCommand {s : State} (hc : s.cfg.wf = true) (c : CmdWord) :
    step (s.placeCommand c) = accept c { s with st := .idle } := by
  rw [step_of_accepts (by simpa using hc) (s.placeCommand_accepts c),
    State.placeCommand_tick_takeCommand]

/-! ### The highest set bit -/

/-- No bit from `bitlen(v)` on is set (00_scope.md R11). -/
theorem testBit_of_bitlen_le {v i : Nat} (h : bitlen v ≤ i) : v.testBit i = false :=
  Nat.testBit_lt_two_pow (bitlen_le_iff.1 h)

/-- The bit just below `bitlen(v)` is set (00_scope.md R11). -/
theorem testBit_bitlen_sub_one {v : Nat} (h : v ≠ 0) : v.testBit (bitlen v - 1) = true :=
  testBit_of_bitlen (Nat.sub_one_add_one (mt bitlen_eq_zero.1 h)).symm

end Sys2Proof.Machine
end

section
/-! The obligations of 00_scope.md. -/

namespace Sys2Proof.Machine

/-- Settles O9: every edge of a well-formed unit answers, and `Config.wf` is the listed constraints. -/
theorem onlyWellFormedConstantsRun : Obligations.OnlyWellFormedConstantsRun := by
  refine ⟨fun s => (step_answers_iff_wf s).trans wf_iff,
    fun s h => step_of_not_wf (mt wf_iff.1 h), ?_⟩
  decide

/-- Settles O39: from the bound `bitlen(v) <= n` iff `v < 2^n` and the highest set bit. -/
theorem bitlenIsHighestBitPlusOne : Obligations.BitlenIsHighestBitPlusOne := by
  refine ⟨bitlen_zero, fun v hv => ⟨?_, ?_, ?_⟩, by decide⟩
  · rw [bitlen_of_ne_zero hv.ne', Nat.add_comm]
  · exact testBit_bitlen_sub_one hv.ne'
  · exact fun i hi => testBit_of_bitlen_le hi

/-- Settles O11: the placed word is accepted at the next edge, and accepting it runs its instruction. -/
theorem placedWordRunsNext : Obligations.PlacedWordRunsNext := by
  intro s nbits w i hc hd
  calc step (s.withFetchWord nbits w)
      = accept (BitVec.ofNat 16 (w % 2 ^ nbits)) { s with st := .idle } := step_placeCommand hc _
    _ = exec i { s with st := .idle } := accept_of_decode (decodeTableWord_eq_some.1 hd) _

end Sys2Proof.Machine
end

section
/-! SUPPORT. The clock edge read forwards: one equation per step of 10_state.md R27, the transfers of the
two channels, and what accepting a word is decided by. -/

namespace Sys2Proof.Machine

/-! ### One equation per step -/

/-- An edge with `rst = 1` is a reset in every phase (10_state.md R29). -/
theorem step_of_reset {s : State} (hc : s.cfg.wf = true) (hr : s.edge.rst = true) :
    step s = .next s.tick.applyReset := by
  simp [step_of_wf hc, clockEdge, hr]

theorem step_of_emit {s : State} (hc : s.cfg.wf = true) (hr : s.edge.rst = false) (hs : s.st = .seq)
    (hz : s.rep ≠ 0#8) (hk : s.edge.rspReady = true) : step s = .next s.tick.emit := by
  simp [step_of_wf hc, clockEdge, hr, hs, hz, hk]

theorem step_of_advance {s : State} (hc : s.cfg.wf = true) (hr : s.edge.rst = false)
    (hs : s.st = .seq) (hz : s.rep = 0#8) : step s = .next s.tick.advance := by
  simp [step_of_wf hc, clockEdge, hr, hs, hz]

theorem step_of_deliver {s : State} (hc : s.cfg.wf = true) (hr : s.edge.rst = false)
    (hs : s.st = .one) (hk : s.edge.rspReady = true) : step s = .next s.tick.deliver := by
  simp [step_of_wf hc, clockEdge, hr, hs, hk]

/-- No step is enabled at an edge without reset: an idle unit is offered no word, or the word on `rsp`
is not taken. It is the condition of the waiting case of `step_cases`. -/
def State.Waits (s : State) : Prop :=
  (s.st = .idle ∧ (s.edge.offer = false ∨ s.offered = [])) ∨
  (s.st = .one ∧ s.edge.rspReady = false) ∨
  (s.st = .seq ∧ s.rep ≠ 0#8 ∧ s.edge.rspReady = false)

theorem step_of_waits {s : State} (hc : s.cfg.wf = true) (hr : s.edge.rst = false) (hw : s.Waits) :
    step s = .next s.tick := by
  rw [step_of_wf hc]
  rcases hw with ⟨hs, ho | ho⟩ | ⟨hs, hk⟩ | ⟨hs, hz, hk⟩
  · simp [clockEdge, hr, hs, ho]
  · simp [clockEdge, hr, hs, ho]
  · simp [clockEdge, hr, hs, hk]
  · simp [clockEdge, hr, hs, hz, hk]

/-! ### The handshake outputs and the transfers -/

theorem State.cmdReady_eq_true {s : State} :
    s.cmdReady = true ↔ s.st = .idle ∧ s.edge.rst = false := by
  simp [State.cmdReady]

theorem State.rspValid_eq_true {s : State} :
    s.rspValid = true ↔
      (s.st = .one ∨ (s.st = .seq ∧ s.rep ≠ 0#8)) ∧ s.edge.rst = false := by
  simp [State.rspValid]

/-- Both handshake outputs are 0 while `rst = 1` (10_state.md R29). -/
theorem State.outputs_of_reset {s : State} (hr : s.edge.rst = true) :
    s.cmdReady = false ∧ s.rspValid = false := by
  simp [State.cmdReady, State.rspValid, hr]

/-- An idle unit out of reset is ready for a command and offers no response (10_state.md R33). -/
theorem State.outputs_of_idle {s : State} (hs : s.st = .idle) (hr : s.edge.rst = false) :
    s.cmdReady = true ∧ s.rspValid = false := by
  simp [State.cmdReady, State.rspValid, hs, hr]

/-- A word accepted at the coming edge is transferred there (20_memory.md R45). -/
theorem State.Accepts.cmdTransfer {s : State} {c : CmdWord} (h : s.Accepts c) :
    s.cmdTransfer = true := by
  obtain ⟨rest, ho⟩ : ∃ rest, s.offered = c :: rest := ⟨_, h.offered_eq⟩
  simp [State.cmdTransfer, State.cmdValid, State.cmdReady, h.idle, h.noReset, h.offer, ho]

/-- No command is transferred outside `IDLE` (10_state.md R33). -/
theorem State.cmdTransfer_of_not_idle {s : State} (h : s.st ≠ .idle) : s.cmdTransfer = false := by
  simp [State.cmdTransfer, State.cmdReady, h]

/-- With no transfer on either channel and no `ADVANCE` to take, the unit waits (10_state.md R27). -/
theorem State.waits_of_no_transfer {s : State} (hr : s.edge.rst = false)
    (hcmd : s.cmdTransfer = false) (hrsp : s.rspTransfer = false)
    (hadv : ¬ (s.st = .seq ∧ s.rep = 0#8)) : s.Waits := by
  cases hs : s.st with
  | idle =>
    have hoffer : s.edge.offer = true → s.offered = [] := by
      simpa [State.cmdTransfer, State.cmdValid, State.cmdReady, hs, hr] using hcmd
    cases ho : s.edge.offer with
    | false => exact .inl ⟨hs, .inl ho⟩
    | true => exact .inl ⟨hs, .inr (hoffer ho)⟩
  | one =>
    have hk : s.edge.rspReady = false := by
      simpa [State.rspTransfer, State.rspValid, hs, hr] using hrsp
    exact .inr (.inl ⟨hs, hk⟩)
  | seq =>
    have hz : s.rep ≠ 0#8 := fun hz => hadv ⟨hs, hz⟩
    have hk : s.edge.rspReady = false := by
      simpa [State.rspTransfer, State.rspValid, hs, hr, hz] using hrsp
    exact .inr (.inr ⟨hs, hz, hk⟩)

/-! ### The accepted word -/

/-- The operands of an `UNPACK` are the low fields of its word (30_encoding.md R62). -/
theorem decode_unpack_operands {c : CmdWord} {version : BitVec 8} {level : BitVec 3}
    (h : decode c = .instr (.unpack version level)) :
    version = c.extractLsb' 0 8 ∧ level = c.extractLsb' 8 3 := by
  unfold decode at h
  split_ifs at h <;> cases h
  exact ⟨rfl, rfl⟩

/-- The row index of a level field is the field's low bits in the word, `cmd[9:8]` (10_state.md R33). -/
theorem rowIndex_extractLsb' (c : CmdWord) : rowIndex (c.extractLsb' 8 3) = c.extractLsb' 8 2 := by
  ext i hi
  simp [rowIndex, show i < 3 by omega]

theorem execUnpack_of_invalid {level : BitVec 3} (hl : levelInvalid level = true)
    (version : BitVec 8) (s : State) :
    execUnpack version level s =
      .next (s.respond (errWord (errorCode .unknownErrorLevel) (level.setWidth 16))) := by
  simp [execUnpack, hl]

theorem execUnpack_of_absent {version : BitVec 8} {level : BitVec 3} {s : State}
    (hl : levelInvalid level = false)
    (hp : presentMark (s.table.read (tblAddr version (rowIndex level) 0#2)) = false) :
    execUnpack version level s =
      .next (s.respond (errWord (errorCode .unknownVersion) (version.setWidth 16))) := by
  simp [execUnpack, hl, hp]

theorem execUnpack_of_present {version : BitVec 8} {level : BitVec 3} {s : State}
    (hl : levelInvalid level = false)
    (hp : presentMark (s.table.read (tblAddr version (rowIndex level) 0#2)) = true) :
    execUnpack version level s =
      .next ((s.startSeq version (rowIndex level)).load
        (s.table.read (tblAddr version (rowIndex level) 0#2)) 0#2) := by
  simp [execUnpack, hl, hp]

/-- What accepting a word does is decided by the word, the constants and the table: every state with them
is answered with one final word, or every one starts the sequence of the same `UNPACK`. It says more
than `accept_cases`: which words can stand in `rw`, and that no register is read. -/
theorem accept_uniform (c : CmdWord) (s : State) :
    (∃ w, FinalWord w ∧
      ∀ t : State, t.cfg = s.cfg → t.table = s.table → accept c t = .next (t.respond w)) ∨
    ∃ (version : BitVec 8) (lvl : BitVec 2),
      presentMark (s.table.read (tblAddr version lvl 0#2)) = true ∧
      ∀ t : State, t.cfg = s.cfg → t.table = s.table →
        accept c t =
          .next ((t.startSeq version lvl).load (s.table.read (tblAddr version lvl 0#2)) 0#2) := by
  cases hd : decode c with
  | illegal w =>
    refine .inl ⟨errWord (errorCode .illegalCommand) w, .inr (.inr ⟨_, _, rfl, rfl⟩), fun t _ _ => ?_⟩
    simp [accept, hd]
  | instr i =>
    simp only [accept_of_decode hd]
    cases i with
    | fmt data =>
      refine .inl ⟨valueWord (fmtValue s.cfg data), .inl ⟨_, rfl⟩, fun t hc _ => ?_⟩
      rw [← hc]; rfl
    | ver data =>
      refine .inl ⟨valueWord (verValue s.cfg data), .inl ⟨_, rfl⟩, fun t hc _ => ?_⟩
      rw [← hc]; rfl
    | unpack version level =>
      cases hl : levelInvalid level with
      | true =>
        exact .inl ⟨_, .inr (.inr ⟨.unknownErrorLevel, _, rfl, rfl⟩),
          fun t _ _ => execUnpack_of_invalid hl version t⟩
      | false =>
        cases hp : presentMark (s.table.read (tblAddr version (rowIndex level) 0#2)) with
        | false =>
          exact .inl ⟨_, .inr (.inr ⟨.unknownVersion, _, rfl, rfl⟩),
            fun t _ ht => execUnpack_of_absent hl (ht ▸ hp)⟩
        | true =>
          exact .inr ⟨version, rowIndex level, hp,
            fun t _ ht => ht ▸ execUnpack_of_present hl (ht ▸ hp)⟩

end Sys2Proof.Machine
end

section
/-! SUPPORT. The invariant of 10_state.md R32, operation by operation. -/

namespace Sys2Proof.Machine

/-- The clock moves on: the invariant speaks of no pin. -/
theorem State.Inv.tick {s : State} (h : s.Inv) : s.tick.Inv :=
  ⟨h.cfg, h.table, h.one, fun hs =>
    have ⟨present, earlier, rep, tc, dc, lastf⟩ := h.seq hs
    ⟨present, earlier, rep, tc, dc, lastf⟩⟩

/-- An idle unit needs its constants and table alone. -/
theorem State.inv_of_idle {s : State} (hc : s.cfg.wf = true) (ht : Memory.wf s.table = true)
    (hs : s.st = .idle) : s.Inv :=
  ⟨hc, ht, fun h => by simp [hs] at h, fun h => by simp [hs] at h⟩

theorem State.inv_respond {s : State} (hc : s.cfg.wf = true) (ht : Memory.wf s.table = true)
    {w : RspWord} (hw : FinalWord w) : (s.respond w).Inv :=
  ⟨hc, ht, fun _ => hw, nofun⟩

/-- Loading word `i` of a present entry whose earlier words are not marked `last` establishes
10_state.md R32 (b). -/
theorem State.seqMatches_load {s : State} {i : BitVec 2} (hc : s.cfg.wf = true)
    (hp : presentMark (s.table.read (tblAddr s.ver s.lvl 0#2)) = true)
    (he : ∀ j : BitVec 2, j < i → lastMark (s.table.read (tblAddr s.ver s.lvl j)) = false) :
    (s.load (s.table.read (tblAddr s.ver s.lvl i)) i).SeqMatches where
  present := hp
  earlier := he
  rep := le_rfl
  tc := rfl
  dc := rfl
  lastf := by simp [wf_maxTriples hc, lastFlag_four]

/-- The triples before the next one are the loaded one and those before it: `tidx` has not wrapped. -/
theorem tidx_lt_succ {i j : BitVec 2} (hi : i ≠ 3#2) (hj : j < i + 1#2) : j < i ∨ j = i := by
  revert i j; decide

theorem State.SeqMatches.advance {s : State} (hc : s.cfg.wf = true) (h : s.SeqMatches)
    (hl : s.lastf = false) : s.advance.SeqMatches := by
  have ⟨hmark, hidx⟩ :
      lastMark (s.table.read (tblAddr s.ver s.lvl s.tidx)) = false ∧ s.tidx ≠ 3#2 := by
    simpa [hl] using h.lastf
  rw [s.advance_next hl]
  refine State.seqMatches_load hc h.present fun j hj => ?_
  rcases tidx_lt_succ hidx hj with hlt | rfl
  · exact h.earlier j hlt
  · exact hmark

/-- `EMIT` lowers `rep`, which was not 0 (40_block_unpack.md R94), and the bound on it holds on. -/
theorem State.SeqMatches.emit {s : State} (h : s.SeqMatches) (hz : s.rep ≠ 0#8) :
    s.emit.SeqMatches where
  present := h.present
  earlier := h.earlier
  rep := by
    have hle : (s.rep - 1#8).toNat ≤ s.rep.toNat := by bv_omega
    exact hle.trans h.rep
  tc := h.tc
  dc := h.dc
  lastf := h.lastf

theorem State.Inv.emit {s : State} (h : s.Inv) (hs : s.st = .seq) (hz : s.rep ≠ 0#8) : s.emit.Inv :=
  ⟨h.cfg, h.table, h.one, fun _ => (h.seq hs).emit hz⟩

theorem State.Inv.advance {s : State} (h : s.Inv) (hs : s.st = .seq) : s.advance.Inv := by
  cases hl : s.lastf with
  | true =>
    rw [s.advance_last hl]
    exact State.inv_respond h.cfg h.table (.inr (.inl rfl))
  | false =>
    have hst : s.advance.st = .seq := by rw [s.advance_next hl]; exact hs
    exact ⟨by simpa using h.cfg, by simpa using h.table, fun ho => by simp [hst] at ho,
      fun _ => (h.seq hs).advance h.cfg hl⟩

/-- Accepting any word establishes the invariant, whatever the registers held. -/
theorem accept_inv {c : CmdWord} {s t : State} (hc : s.cfg.wf = true) (ht : Memory.wf s.table = true)
    (h : accept c s = .next t) : t.Inv := by
  rcases accept_uniform c s with ⟨w, hw, ha⟩ | ⟨version, lvl, hp, ha⟩ <;>
    obtain rfl := Host.Outcome.next.inj ((ha s rfl rfl).symm.trans h)
  · exact State.inv_respond hc ht hw
  · have hmatch : ((s.startSeq version lvl).load
        (s.table.read (tblAddr version lvl 0#2)) 0#2).SeqMatches :=
      State.seqMatches_load (s := s.startSeq version lvl) hc hp
        fun j hj => absurd hj (BitVec.not_lt_zero)
    exact ⟨hc, ht, nofun, fun _ => hmatch⟩

end Sys2Proof.Machine
end

section
/-! SUPPORT. `State.LiveEq`, operation by operation: each live register a step reads is the same on both
sides, so each step leads to states that differ in dead registers only (10_state.md R26, R30). -/

namespace Sys2Proof.Machine

variable {s t : State}

theorem State.LiveEq.edge (h : s.LiveEq t) : s.edge = t.edge := by
  simp [State.edge, h.edges]

theorem State.LiveEq.rep_eq (h : s.LiveEq t) (hs : s.st = .seq) : s.rep = t.rep := by
  obtain ⟨-, -, -, hrep, -⟩ := h.seq hs
  exact hrep

theorem State.LiveEq.cmdReady (h : s.LiveEq t) : s.cmdReady = t.cmdReady := by
  simp [State.cmdReady, h.st, h.edge]

theorem State.LiveEq.rspValid (h : s.LiveEq t) : s.rspValid = t.rspValid := by
  cases hs : s.st with
  | idle => simp [State.rspValid, hs, ← h.st]
  | one => simp [State.rspValid, hs, ← h.st, h.edge]
  | seq => simp [State.rspValid, hs, ← h.st, h.edge, h.rep_eq hs]

/-- The word on `rsp` is the same wherever it is specified (10_state.md R33). -/
theorem State.LiveEq.rsp (h : s.LiveEq t) : s.rsp = t.rsp := by
  cases hs : s.st with
  | idle => simp [State.rsp, hs, ← h.st]
  | one => simp [State.rsp, hs, ← h.st, h.one hs]
  | seq =>
    obtain ⟨-, -, -, hrep, htc, hdc, -⟩ := h.seq hs
    simp [State.rsp, hs, ← h.st, hrep, htc, hdc]

theorem State.LiveEq.waits (h : s.LiveEq t) (hw : s.Waits) : t.Waits := by
  rcases hw with ⟨hs, ho⟩ | ⟨hs, hk⟩ | ⟨hs, hz, hk⟩
  · exact .inl ⟨h.st ▸ hs, h.edge ▸ h.offered ▸ ho⟩
  · exact .inr (.inl ⟨h.st ▸ hs, h.edge ▸ hk⟩)
  · exact .inr (.inr ⟨h.st ▸ hs, h.rep_eq hs ▸ hz, h.edge ▸ hk⟩)

theorem State.LiveEq.tick (h : s.LiveEq t) : s.tick.LiveEq t.tick :=
  { h with edges := congrArg List.tail h.edges }

theorem State.LiveEq.takeCommand (h : s.LiveEq t) : s.takeCommand.LiveEq t.takeCommand :=
  { h with offered := congrArg List.tail h.offered }

theorem State.LiveEq.applyReset (h : s.LiveEq t) : s.applyReset.LiveEq t.applyReset :=
  ⟨rfl, h.cfg, h.table, h.offered, h.sent, h.edges, nofun, nofun⟩

theorem State.LiveEq.respond (h : s.LiveEq t) (w : RspWord) : (s.respond w).LiveEq (t.respond w) :=
  ⟨rfl, h.cfg, h.table, h.offered, h.sent, h.edges, fun _ => rfl, nofun⟩

theorem State.LiveEq.deliver (h : s.LiveEq t) (hs : s.st = .one) : s.deliver.LiveEq t.deliver :=
  ⟨rfl, h.cfg, h.table, h.offered, by simp [h.sent, h.one hs], h.edges, nofun, nofun⟩

theorem State.LiveEq.emit (h : s.LiveEq t) (hs : s.st = .seq) : s.emit.LiveEq t.emit := by
  obtain ⟨hver, hlvl, htidx, hrep, htc, hdc, hlastf⟩ := h.seq hs
  exact ⟨h.st, h.cfg, h.table, h.offered, by simp [h.sent, htc, hdc], h.edges, h.one,
    fun _ => ⟨hver, hlvl, htidx, by simp [hrep], htc, hdc, hlastf⟩⟩

/-- Starting a sequence and loading its first triple overwrites every register live in it. -/
theorem State.LiveEq.startSeq_load (h : s.LiveEq t) (version : BitVec 8) (lvl : BitVec 2)
    (w : TblWord) (i : BitVec 2) :
    ((s.startSeq version lvl).load w i).LiveEq ((t.startSeq version lvl).load w i) :=
  ⟨rfl, h.cfg, h.table, h.offered, h.sent, h.edges, nofun,
    fun _ => ⟨rfl, rfl, rfl, rfl, rfl, rfl, by simp [h.cfg]⟩⟩

/-- A sequence in progress is one started with its own operands. -/
theorem State.startSeq_self (hs : s.st = .seq) : s.startSeq s.ver s.lvl = s := by
  simp [State.startSeq, ← hs]

theorem State.LiveEq.advance (h : s.LiveEq t) (hs : s.st = .seq) : s.advance.LiveEq t.advance := by
  obtain ⟨hver, hlvl, htidx, -, -, -, hlastf⟩ := h.seq hs
  cases hl : s.lastf with
  | true =>
    rw [s.advance_last hl, t.advance_last (hlastf ▸ hl)]
    exact h.respond endWord
  | false =>
    rw [s.advance_next hl, t.advance_next (hlastf ▸ hl)]
    have hload := h.startSeq_load s.ver s.lvl
      (s.table.read (tblAddr s.ver s.lvl (s.tidx + 1#2))) (s.tidx + 1#2)
    rw [State.startSeq_self hs, hver, hlvl, State.startSeq_self (h.st ▸ hs)] at hload
    simpa only [h.table, htidx, hver, hlvl] using hload

theorem State.LiveEq.accept {c : CmdWord} {u : State} (h : s.LiveEq t)
    (ha : Machine.accept c s = .next u) : ∃ v, Machine.accept c t = .next v ∧ u.LiveEq v := by
  rcases accept_uniform c s with ⟨w, -, hall⟩ | ⟨version, lvl, -, hall⟩ <;>
    obtain rfl := Host.Outcome.next.inj ((hall s rfl rfl).symm.trans ha)
  · exact ⟨_, hall t h.cfg.symm h.table.symm, h.respond w⟩
  · exact ⟨_, hall t h.cfg.symm h.table.symm, h.startSeq_load ..⟩

theorem State.LiveEq.accepts {c : CmdWord} (h : s.LiveEq t) (ha : s.Accepts c) : t.Accepts c :=
  ⟨h.st ▸ ha.idle, h.edge ▸ ha.noReset, h.edge ▸ ha.offer, h.offered ▸ ha.word⟩

/-- A step is matched by the same step of a state that differs in dead registers only. -/
theorem State.LiveEq.step_next {u : State} (h : s.LiveEq t) (hu : step s = .next u) :
    ∃ v, step t = .next v ∧ u.LiveEq v := by
  obtain ⟨hc, hcase⟩ := step_cases hu
  have hct : t.cfg.wf = true := h.cfg ▸ hc
  obtain ⟨hr, rfl⟩ | ⟨hr, rfl, hw⟩ | ⟨hr, hs, ho, c, rest, hq, ha⟩ | ⟨hr, hs, hk, rfl⟩ |
    ⟨hr, hs, hz, rfl⟩ | ⟨hr, hs, hz, hk, rfl⟩ := hcase
  · exact ⟨_, step_of_reset hct (h.edge ▸ hr), h.tick.applyReset⟩
  · exact ⟨_, step_of_waits hct (h.edge ▸ hr) (h.waits hw), h.tick⟩
  · have hacc : s.Accepts c := ⟨hs, hr, ho, by simp [hq]⟩
    obtain ⟨v, hv, huv⟩ := h.tick.takeCommand.accept ha
    exact ⟨v, (step_of_accepts hct (h.accepts hacc)).trans hv, huv⟩
  · exact ⟨_, step_of_deliver hct (h.edge ▸ hr) (h.st ▸ hs) (h.edge ▸ hk), h.tick.deliver hs⟩
  · exact ⟨_, step_of_advance hct (h.edge ▸ hr) (h.st ▸ hs) (h.rep_eq hs ▸ hz),
      h.tick.advance hs⟩
  · exact ⟨_, step_of_emit hct (h.edge ▸ hr) (h.st ▸ hs) (h.rep_eq hs ▸ hz) (h.edge ▸ hk),
      h.tick.emit hs⟩

/-- A refusal depends on the constants alone, which are the same. -/
theorem State.LiveEq.step_refused {r : Refusal} (h : s.LiveEq t) (hr : step s = .refused r) :
    step t = .refused r := by
  have hwf : ¬ s.cfg.wf = true := fun hc => by
    obtain ⟨u, hu⟩ := (step_answers_iff_wf s).2 hc
    cases hu.symm.trans hr
  rw [step_of_not_wf (h.cfg ▸ hwf), ← hr, step_of_not_wf hwf]

end Sys2Proof.Machine
end

section
/-! The obligations of 10_state.md. -/

namespace Sys2Proof.Machine

/-- Settles O50: by the cases of a step, each operation keeping or establishing the invariant. -/
theorem stepKeepsInvariant : Obligations.StepKeepsInvariant := by
  intro s t h hstep
  obtain ⟨-, ⟨-, rfl⟩ | ⟨-, rfl, -⟩ | ⟨-, -, -, c, rest, -, ha⟩ | ⟨-, -, -, rfl⟩ |
    ⟨-, hs, -, rfl⟩ | ⟨-, hs, hz, -, rfl⟩⟩ := step_cases hstep
  · exact State.inv_of_idle h.cfg h.table rfl
  · exact h.tick
  · exact accept_inv (s := s.tick.takeCommand) h.cfg h.table ha
  · exact State.inv_of_idle h.cfg h.table rfl
  · exact h.tick.advance hs
  · exact h.tick.emit hs hz

/-- Settles O51: the outputs and every operation of a step read live registers only. -/
theorem deadRegistersAreNeverRead : Obligations.DeadRegistersAreNeverRead :=
  fun _ _ h => ⟨h.cmdReady, h.rspValid, fun _ => h.rsp, fun _ => h.step_next, fun _ => h.step_refused⟩

/-- Settles O1: the step is the reset, and the idle unit it leaves has R33's outputs. -/
theorem resetEdgeLeavesIdle : Obligations.ResetEdgeLeavesIdle := by
  intro s hc hr
  obtain ⟨hready, hvalid⟩ := State.outputs_of_reset hr
  exact ⟨hready, hvalid, _, step_of_reset hc hr, rfl, rfl, rfl, rfl, rfl, State.outputs_of_idle rfl⟩

/-- Settles O2: the decided constants are well formed, the empty table is canonical, the unit is idle. -/
theorem resetMeetsInvariant : Obligations.ResetMeetsInvariant := by
  have hc : State.reset.cfg.wf = true := by decide
  exact ⟨State.inv_of_idle hc State.reset_table_wf rfl, rfl, State.outputs_of_idle rfl rfl⟩

/-- Settles O4: each output by its definition; `tbl_addr` by the fields of the accepted word. -/
theorem outputsAreFunctionsOfState : Obligations.OutputsAreFunctionsOfState := by
  refine fun s => ⟨State.cmdReady_eq_true, State.rspValid_eq_true, fun hs => ?_, fun hs hz => ?_,
    fun c version level ha hd => ?_, fun hs hz hl => ?_⟩
  · simp [State.rsp, hs]
  · simp [State.rsp, hs, hz]
  · obtain ⟨rfl, rfl⟩ := decode_unpack_operands hd
    simp [State.tblPort, State.cmd, ha.cmdTransfer, ha.word, hd, tblAddr, rowIndex_extractLsb']
  · simp [State.tblPort, State.cmdTransfer_of_not_idle, State.advanceAddr, hs, hz, hl, tblAddr]

/-- Settles O5: one equation of the step for each condition of R27. -/
theorem edgeTakesTheEnabledStep : Obligations.EdgeTakesTheEnabledStep := fun _ hc =>
  ⟨step_of_reset hc, fun _ => step_of_accepts hc, step_of_emit hc, step_of_advance hc,
    step_of_deliver hc, fun hr hcmd hrsp hadv =>
      step_of_waits hc hr (State.waits_of_no_transfer hr hcmd hrsp hadv)⟩

/-- Settles O10: the accepted word's step is `accept`, which runs the instruction it decodes to. -/
theorem stepRunsTheDecodedInstruction : Obligations.StepRunsTheDecodedInstruction :=
  fun s _ _ hc ha hd _ => (step_of_accepts hc ha).trans (accept_of_decode hd s.tick.takeCommand)

/-- Settles O33: the step is `DELIVER` of the state past the edge. -/
theorem deliverStep : Obligations.DeliverStep := fun _ => step_of_deliver

end Sys2Proof.Machine
end

section
/-! SUPPORT. The two channels at one step, what no step writes, and the table space: its address map, its
canonical form and the entry function (20_memory.md). -/

namespace Sys2Proof.Machine

/-! ### The handshakes -/

/-- A command is transferred exactly when some word is accepted (20_memory.md R45). -/
theorem State.cmdTransfer_iff_accepts {s : State} : s.cmdTransfer = true ↔ ∃ c, s.Accepts c := by
  constructor
  · intro h
    obtain ⟨⟨hoffer, hwaiting⟩, hidle, hrst⟩ :
        (s.edge.offer = true ∧ s.offered ≠ []) ∧ s.st = .idle ∧ s.edge.rst = false := by
      simpa [State.cmdTransfer, State.cmdValid, State.cmdReady] using h
    exact ⟨s.offered.head hwaiting, hidle, hrst, hoffer, List.head?_eq_some_head hwaiting⟩
  · rintro ⟨c, hc⟩
    exact hc.cmdTransfer

theorem State.rspTransfer_eq_true {s : State} :
    s.rspTransfer = true ↔ s.rspValid = true ∧ s.edge.rspReady = true := by
  simp [State.rspTransfer]

/-- A word is offered while `st = ONE` or an `EMIT` is enabled: it is `rw`, or the descriptor of the loaded
triple (10_state.md R33). -/
theorem State.rsp_cases {s : State} (h : s.rspValid = true) :
    s.edge.rst = false ∧
      ((s.st = .one ∧ s.rsp = some s.rw) ∨
       (s.st = .seq ∧ s.rep ≠ 0#8 ∧ s.rsp = some (descWord s.tc s.dc))) := by
  obtain ⟨hs | ⟨hs, hz⟩, hr⟩ := State.rspValid_eq_true.1 h
  · exact ⟨hr, .inl ⟨hs, by simp [State.rsp, hs]⟩⟩
  · exact ⟨hr, .inr ⟨hs, hz, by simp [State.rsp, hs, hz]⟩⟩

/-- While the word on `rsp` is not taken the unit waits (20_memory.md R46). -/
theorem State.waits_of_rsp_stalled {s : State} (hv : s.rspValid = true)
    (hk : s.edge.rspReady = false) : s.Waits := by
  obtain ⟨-, ⟨hs, -⟩ | ⟨hs, hz, -⟩⟩ := State.rsp_cases hv
  · exact .inr (.inl ⟨hs, hk⟩)
  · exact .inr (.inr ⟨hs, hz, hk⟩)

/-! ### What accepting a word and a step leave unchanged -/

/-- Accepting a word writes no parameter, neither channel and no pin (10_state.md R25, R27). -/
theorem accept_frame {c : CmdWord} {s t : State} (h : accept c s = .next t) :
    t.cfg = s.cfg ∧ t.table = s.table ∧ t.offered = s.offered ∧ t.sent = s.sent ∧
      t.edges = s.edges := by
  rcases accept_cases c s with ⟨w, ha⟩ | ⟨version, level, -, -, -, ha⟩
  · cases ha.symm.trans h; simp
  · cases ha.symm.trans h; simp

/-- No step writes the constants or the table (10_state.md R25; 20_memory.md R41). -/
theorem step_keeps_parameters {s t : State} (h : step s = .next t) :
    t.cfg = s.cfg ∧ t.table = s.table := by
  obtain ⟨-, ⟨-, rfl⟩ | ⟨-, rfl, -⟩ | ⟨-, -, -, c, rest, -, ha⟩ | ⟨-, -, -, rfl⟩ |
    ⟨-, -, -, rfl⟩ | ⟨-, -, -, -, rfl⟩⟩ := step_cases h
  · simp
  · simp
  · obtain ⟨hcfg, htable, -⟩ := accept_frame ha
    exact ⟨hcfg, htable⟩
  · simp
  · simp
  · simp

/-- Without a handshake on the command channel no offered word is taken. -/
theorem step_offered_of_no_transfer {s t : State} (h : step s = .next t)
    (hcmd : s.cmdTransfer = false) : t.offered = s.offered := by
  obtain ⟨-, ⟨-, rfl⟩ | ⟨-, rfl, -⟩ | ⟨hr, hs, ho, c, rest, hoff, -⟩ | ⟨-, -, -, rfl⟩ |
    ⟨-, -, -, rfl⟩ | ⟨-, -, -, -, rfl⟩⟩ := step_cases h
  · simp
  · simp
  · have hacc : s.Accepts c := ⟨hs, hr, ho, by simp [hoff]⟩
    simp [hacc.cmdTransfer] at hcmd
  · simp
  · simp
  · simp

/-- Without a handshake on the response channel no word is sent. -/
theorem step_sent_of_no_transfer {s t : State} (h : step s = .next t)
    (hrsp : s.rspTransfer = false) : t.sent = s.sent := by
  obtain ⟨-, ⟨-, rfl⟩ | ⟨-, rfl, -⟩ | ⟨-, -, -, c, rest, -, ha⟩ | ⟨hr, hs, hk, -⟩ |
    ⟨-, -, -, rfl⟩ | ⟨hr, hs, hz, hk, -⟩⟩ := step_cases h
  · simp
  · simp
  · obtain ⟨-, -, -, hsent, -⟩ := accept_frame ha
    exact hsent
  · simp [State.rspTransfer, State.rspValid, hr, hs, hk] at hrsp
  · simp
  · simp [State.rspTransfer, State.rspValid, hr, hs, hz, hk] at hrsp

/-! ### The address map -/

/-- The concatenation as a number (20_memory.md R43). -/
theorem tblAddr_toNat (version : BitVec 8) (lvl tidx : BitVec 2) :
    (tblAddr version lvl tidx).toNat = version.toNat * 16 + lvl.toNat * 4 + tidx.toNat := by
  rw [tblAddr, BitVec.toNat_append, BitVec.toNat_append, ← Nat.shiftLeft_add_eq_or_of_lt tidx.isLt,
    ← Nat.shiftLeft_add_eq_or_of_lt lvl.isLt, Nat.shiftLeft_eq, Nat.shiftLeft_eq]
  omega

/-- Word `i` of an entry lies `i` addresses after its first (20_memory.md R43). -/
theorem tblAddr_ofNat (version : BitVec 8) (lvl : BitVec 2) {i : Nat} (hi : i < 4) :
    tblAddr version lvl (BitVec.ofNat 2 i) =
      BitVec.ofNat 12 (version.toNat * 16 + lvl.toNat * 4 + i) := by
  apply BitVec.eq_of_toNat_eq
  rw [tblAddr_toNat, BitVec.toNat_ofNat, BitVec.toNat_ofNat]
  omega

theorem tblAddr_inj {v v' : BitVec 8} {l l' i i' : BitVec 2} :
    tblAddr v l i = tblAddr v' l' i' ↔ v = v' ∧ l = l' ∧ i = i' := by
  simp only [← BitVec.toNat_inj, tblAddr_toNat]
  omega

/-- Every address is that of some word of some entry. -/
theorem exists_tblAddr_eq (a : TblAddr) : ∃ version lvl tidx, tblAddr version lvl tidx = a := by
  refine ⟨BitVec.ofNat 8 (a.toNat / 16), BitVec.ofNat 2 (a.toNat / 4), BitVec.ofNat 2 a.toNat, ?_⟩
  apply BitVec.eq_of_toNat_eq
  simp only [tblAddr_toNat, BitVec.toNat_ofNat]
  omega

/-! ### The canonical form of a table -/

/-- The table with the words of `f` at the addresses `as`, written one at a time by the environment
(20_memory.md R53). -/
def Memory.populate (f : TblAddr → TblWord) (as : List TblAddr) : Memory :=
  as.foldr (fun a m => Memory.write m a (f a)) []

/-- The addresses of the table space (20_memory.md R43). -/
def allAddresses : List TblAddr := (List.range 4096).map (BitVec.ofNat 12)

theorem mem_allAddresses (a : TblAddr) : a ∈ allAddresses :=
  List.mem_map.2 ⟨a.toNat, List.mem_range.2 a.isLt, BitVec.ofNat_toNat 12 a⟩

theorem Memory.populate_wf (f : TblAddr → TblWord) (as : List TblAddr) :
    Memory.wf (Memory.populate f as) = true := by
  induction as with
  | nil => rfl
  | cons a as ih => exact Memory.write_wf ih a (f a)

theorem Memory.read_populate (f : TblAddr → TblWord) {as : List TblAddr} {a : TblAddr}
    (h : a ∈ as) : Memory.read (Memory.populate f as) a = f a := by
  induction as with
  | nil => cases h
  | cons b as ih =>
    have hread : Memory.read (Memory.populate f (b :: as)) a =
        if a = b then f b else Memory.read (Memory.populate f as) a :=
      Memory.read_write (Memory.populate_wf f as) b a (f b)
    rw [hread]
    split_ifs with hab
    · rw [hab]
    · exact ih ((List.mem_cons.1 h).resolve_left hab)

theorem Memory.read_cons (k : Nat) (w : TblWord) (m : Memory) (a : TblAddr) :
    Memory.read ((k, w) :: m) a = if k = a.toNat then w else Memory.read m a := rfl

/-- A canonical table lists exactly the words that differ from what an unlisted word reads as. -/
theorem Memory.mem_iff_read {m : Memory} (h : Memory.wf m = true) (k : Nat) (w : TblWord) :
    (k, w) ∈ m ↔ ∃ a : TblAddr, a.toNat = k ∧ Memory.read m a = w ∧ w ≠ unlistedWord := by
  induction m with
  | nil => simp [eq_comm]
  | cons e m ih =>
    obtain ⟨k₀, w₀⟩ := e
    obtain ⟨hk₀, hw₀, hbelow, hm⟩ := Memory.wf_cons.1 h
    rw [List.mem_cons, ih hm]
    constructor
    · rintro (heq | ⟨a, rfl, hread, hw⟩)
      · cases heq
        have hk : (BitVec.ofNat 12 k).toNat = k := by
          rw [BitVec.toNat_ofNat, Nat.mod_eq_of_lt hk₀]
        exact ⟨BitVec.ofNat 12 k, hk, by rw [Memory.read_cons, if_pos hk.symm], hw₀⟩
      · have hlt : k₀ < a.toNat := hbelow (a.toNat, w) ((ih hm).2 ⟨a, rfl, hread, hw⟩)
        exact ⟨a, rfl, by rw [Memory.read_cons, if_neg hlt.ne, hread], hw⟩
    · rintro ⟨a, rfl, hread, hw⟩
      rw [Memory.read_cons] at hread
      split_ifs at hread with hka
      · exact .inl (by rw [hka, hread])
      · exact .inr ⟨a, rfl, hread, hw⟩

/-- A canonical table lists its addresses by strict rise. -/
theorem Memory.wf_pairwise {m : Memory} (h : Memory.wf m = true) :
    m.Pairwise (fun c d => c.1 < d.1) := by
  induction m with
  | nil => exact .nil
  | cons e m ih =>
    obtain ⟨-, -, hbelow, hm⟩ := Memory.wf_cons.1 h
    exact .cons hbelow (ih hm)

/-- Canonical tables that read alike are the same table. -/
theorem Memory.eq_of_read_eq {m m' : Memory} (h : Memory.wf m = true) (h' : Memory.wf m' = true)
    (hread : ∀ a, Memory.read m a = Memory.read m' a) : m = m' := by
  have : Std.Irrefl (fun c d : Nat × TblWord => c.1 < d.1) := ⟨fun c => lt_irrefl c.1⟩
  have : Std.Antisymm (fun c d : Nat × TblWord => c.1 < d.1) := ⟨fun c d hcd hdc => by omega⟩
  refine List.Pairwise.eq_of_mem_iff (Memory.wf_pairwise h) (Memory.wf_pairwise h') fun (k, w) => ?_
  rw [Memory.mem_iff_read h, Memory.mem_iff_read h']
  simp only [hread]

/-! ### The entry function -/

/-- Reading stops at a word that is marked `last` (20_memory.md R44). -/
theorem triplesFrom_cons_last {table : Memory} {version : BitVec 8} {lvl i : BitVec 2}
    (h : lastMark (table.read (tblAddr version lvl i)) = true) (is : List (BitVec 2)) :
    triplesFrom table version lvl (i :: is) = [tripleOf (table.read (tblAddr version lvl i))] := by
  simp [triplesFrom, h]

/-- Reading goes on after a word that is not marked `last` (20_memory.md R44). -/
theorem triplesFrom_cons_more {table : Memory} {version : BitVec 8} {lvl i : BitVec 2}
    (h : lastMark (table.read (tblAddr version lvl i)) = false) (is : List (BitVec 2)) :
    triplesFrom table version lvl (i :: is) =
      tripleOf (table.read (tblAddr version lvl i)) :: triplesFrom table version lvl is := by
  simp [triplesFrom, h]

/-- The words `k` to `k + m` of an entry give the triples up to the first that is marked `last`, or all
`m + 1` (20_memory.md R44). -/
theorem triplesFrom_range' (table : Memory) (version : BitVec 8) (lvl : BitVec 2) (m k : Nat) :
    let w i := table.read (tblAddr version lvl (BitVec.ofNat 2 i))
    ∃ n ≤ m, (∀ i < n, lastMark (w (k + i)) = false) ∧ (lastMark (w (k + n)) = true ∨ n = m) ∧
      triplesFrom table version lvl ((List.range' k (m + 1)).map (BitVec.ofNat 2)) =
        (List.range' k (n + 1)).map fun i => tripleOf (w i) := by
  intro w
  induction m generalizing k with
  | zero => exact ⟨0, le_rfl, by simp, .inr rfl, by simp [triplesFrom, w]⟩
  | succ m ih =>
    rw [List.range'_succ, List.map_cons]
    cases hk : lastMark (w k) with
    | true =>
      exact ⟨0, Nat.zero_le _, by simp, .inl hk, by simp [triplesFrom_cons_last hk, w]⟩
    | false =>
      obtain ⟨n, hn, hbefore, hat, heq⟩ := ih (k + 1)
      refine ⟨n + 1, by omega, fun i hi => ?_, ?_, ?_⟩
      · cases i with
        | zero => exact hk
        | succ i => simpa [Nat.add_comm, Nat.add_left_comm] using hbefore i (by omega)
      · simpa [Nat.add_comm, Nat.add_left_comm] using hat
      · rw [triplesFrom_cons_more hk, heq, List.range'_succ (n := n + 1), List.map_cons]

/-- The words of an entry by their addresses (20_memory.md R43), and the triples they give (R44). -/
theorem triplesFrom_tripleIndices_four (table : Memory) (version : BitVec 8) (lvl : BitVec 2)
    {w : Nat → TblWord}
    (hw : ∀ i < 4, table.read (tblAddr version lvl (BitVec.ofNat 2 i)) = w i) :
    ∃ n ≤ 3, (∀ i < n, lastMark (w i) = false) ∧ (lastMark (w n) = true ∨ n = 3) ∧
      triplesFrom table version lvl (tripleIndices 4) =
        (List.range (n + 1)).map fun i => tripleOf (w i) := by
  obtain ⟨n, hn, hbefore, hat, heq⟩ := triplesFrom_range' table version lvl 3 0
  simp only [Nat.zero_add, ← List.range_eq_range'] at hbefore hat heq
  refine ⟨n, hn, fun i hi => hw i (by omega) ▸ hbefore i hi, hw n (by omega) ▸ hat, ?_⟩
  rw [tripleIndices, heq]
  exact List.map_congr_left fun i hi => by rw [hw i (by have := List.mem_range.1 hi; omega)]

end Sys2Proof.Machine
end

section
/-! The obligations of 20_memory.md. -/

namespace Sys2Proof.Machine

/-- Settles O6: a transferred word is the one accepted, and no other step touches the words offered. -/
theorem commandMovesOnlyAtHandshake : Obligations.CommandMovesOnlyAtHandshake := by
  intro s t h
  refine ⟨fun hcmd => ?_, step_offered_of_no_transfer h⟩
  obtain ⟨c, hacc⟩ := State.cmdTransfer_iff_accepts.1 hcmd
  obtain ⟨-, -, hoffered, -⟩ := accept_frame ((step_of_accepts (step_cases h).1 hacc).symm.trans h)
  exact ⟨c, hoffered ▸ hacc.offered_eq⟩

/-- Settles O7: a transfer is a `DELIVER` or an `EMIT` of the word on `rsp`; a stalled unit waits. -/
theorem responseMovesOnlyAtHandshake : Obligations.ResponseMovesOnlyAtHandshake := by
  intro s t h
  have hc := (step_cases h).1
  refine ⟨fun hrsp => ?_, step_sent_of_no_transfer h, fun hv hk => ?_⟩
  · obtain ⟨hv, hk⟩ := State.rspTransfer_eq_true.1 hrsp
    obtain ⟨hr, ⟨hs, hw⟩ | ⟨hs, hz, hw⟩⟩ := State.rsp_cases hv
    · cases (step_of_deliver hc hr hs hk).symm.trans h
      exact ⟨_, hw, by simp⟩
    · cases (step_of_emit hc hr hs hz hk).symm.trans h
      exact ⟨_, hw, by simp⟩
  · obtain ⟨hphase, hr⟩ := State.rspValid_eq_true.1 hv
    cases (step_of_waits hc hr (State.waits_of_rsp_stalled hv hk)).symm.trans h
    exact ⟨rfl, rfl, fun hr' => State.rspValid_eq_true.2 ⟨hphase, hr'⟩⟩

/-- Settles O21: the address map as a number, onto and one to one. -/
theorem tableAddressesFillTheSpace : Obligations.TableAddressesFillTheSpace := by
  refine ⟨tblAddr_toNat, fun a => ?_⟩
  obtain ⟨version, lvl, tidx, rfl⟩ := exists_tblAddr_eq a
  exact ⟨version, lvl, tidx, rfl, fun v l i h => tblAddr_inj.1 h⟩

/-- Settles O23: the table populated at every address reads as `f`, and canonical tables that read alike
are the same. -/
theorem everyTableHasOneForm : Obligations.EveryTableHasOneForm := by
  intro f
  have hwf := Memory.populate_wf f allAddresses
  have hread a : Memory.read (Memory.populate f allAddresses) a = f a :=
    Memory.read_populate f (mem_allAddresses a)
  exact ⟨_, hwf, hread, fun m' hwf' hread' =>
    Memory.eq_of_read_eq hwf' hwf fun a => (hread' a).trans (hread a).symm⟩

/-- Settles O24: `entry` reads its words up to the first marked `last`, at the addresses of R43. -/
theorem entryIsTheMarkedTriples : Obligations.EntryIsTheMarkedTriples := by
  intro c m version lvl hmax w
  have hw : ∀ i < 4, m.read (tblAddr version lvl (BitVec.ofNat 2 i)) = w i :=
    fun i hi => by rw [tblAddr_ofNat version lvl hi]
  obtain ⟨n, hn, hbefore, hat, heq⟩ := triplesFrom_tripleIndices_four m version lvl hw
  have hentry : entry c m version lvl =
      if presentMark (w 0) then some ((List.range (n + 1)).map fun i => tripleOf (w i)) else none := by
    rw [entry, hmax, heq, ← hw 0 (by omega)]
  refine ⟨by simp [hentry], fun triples htriples => ⟨n, hn, hbefore, hat, ?_⟩⟩
  rw [hentry] at htriples
  split_ifs at htriples
  exact (Option.some.inj htriples).symm

/-- Settles O27: every step keeps the table and the constants, so every run does. -/
theorem noRunWritesTableOrConstants : Obligations.NoRunWritesTableOrConstants := by
  intro k s t h
  obtain ⟨hcfg, htable⟩ : t.cfg = s.cfg ∧ t.table = s.table :=
    runSteps_keeps (P := fun u => u.cfg = s.cfg ∧ u.table = s.table)
      (fun u v hu hstep => ⟨(step_keeps_parameters hstep).1.trans hu.1,
        (step_keeps_parameters hstep).2.trans hu.2⟩) ⟨rfl, rfl⟩ h
  exact ⟨htable, hcfg, fun a => by rw [htable]⟩

end Sys2Proof.Machine
end

section
/-! SUPPORT. The words of 30_encoding.md as numbers: the fields of a concatenation, the response words, the
table words. -/

namespace Sys2Proof.Machine

/-! ### Concatenation and fields -/

/-- The left part of a concatenation counts in units of the right part's range. -/
theorem append_toNat {n m : Nat} (x : BitVec n) (y : BitVec m) :
    (x ++ y).toNat = x.toNat * 2 ^ m + y.toNat := by
  rw [BitVec.toNat_append, ← Nat.shiftLeft_add_eq_or_of_lt y.isLt, Nat.shiftLeft_eq]

/-- A field of a word as a number. -/
theorem field_toNat {n : Nat} (x : BitVec n) (start len : Nat) :
    (x.extractLsb' start len).toNat = x.toNat / 2 ^ start % 2 ^ len := by
  rw [BitVec.extractLsb'_toNat, Nat.shiftRight_eq_div_pow]

/-- A bit of a word as a digit of its number. -/
theorem getLsbD_eq_true_iff {n : Nat} (x : BitVec n) (i : Nat) :
    x.getLsbD i = true ↔ x.toNat / 2 ^ i % 2 = 1 := by
  rw [← BitVec.testBit_toNat, Nat.testBit_eq_decide_div_mod_eq, decide_eq_true_iff]

/-- The bits of a word from bit `k` up are those of `b`, whose lower bits are zero. -/
theorem and_allOnes_shiftLeft_eq_iff {n : Nat} (x b : BitVec n) (k : Nat) :
    x &&& BitVec.allOnes n <<< k = b ↔ x.toNat / 2 ^ k * 2 ^ k = b.toNat := by
  have hlt : x.toNat / 2 ^ k * 2 ^ k < 2 ^ n := (Nat.div_mul_le_self ..).trans_lt x.isLt
  rw [← BitVec.shiftLeft_ushiftRight, ← BitVec.toNat_inj, BitVec.toNat_shiftLeft,
    BitVec.toNat_ushiftRight, Nat.shiftRight_eq_div_pow, Nat.shiftLeft_eq, Nat.mod_eq_of_lt hlt]

/-! ### The response words -/

theorem valueWord_toNat (v : BitVec 18) : (valueWord v).toNat = v.toNat := by
  simp only [valueWord, append_toNat, BitVec.toNat_ofNat]
  omega

theorem descWord_toNat (t d : BitVec 8) :
    (descWord t d).toNat = 0x40000000 + t.toNat * 256 + d.toNat := by
  simp only [descWord, append_toNat, BitVec.toNat_ofNat]
  omega

theorem endWord_toNat : endWord.toNat = 0x80000000 := rfl

theorem errWord_toNat (k : BitVec 3) (info : BitVec 16) :
    (errWord k info).toNat = 0xC0000000 + k.toNat * 2 ^ 24 + info.toNat := by
  simp only [errWord, append_toNat, BitVec.toNat_ofNat]
  omega

/-- The kind of a word is the quarter of the 32-bit range it lies in (30_encoding.md R68). -/
theorem rspKind_eq_iff (w : RspWord) (k : BitVec 2) :
    rspKind w = k ↔ w.toNat / 2 ^ 30 = k.toNat := by
  rw [rspKind, ← BitVec.toNat_inj, field_toNat]
  omega

@[simp] theorem rspKind_valueWord (v : BitVec 18) : rspKind (valueWord v) = 0b00#2 := by
  rw [rspKind_eq_iff, valueWord_toNat, BitVec.toNat_ofNat]
  omega

@[simp] theorem rspKind_descWord (t d : BitVec 8) : rspKind (descWord t d) = 0b01#2 := by
  rw [rspKind_eq_iff, descWord_toNat, BitVec.toNat_ofNat]
  omega

@[simp] theorem rspKind_endWord : rspKind endWord = 0b10#2 := rfl

@[simp] theorem rspKind_errWord (k : BitVec 3) (info : BitVec 16) :
    rspKind (errWord k info) = 0b11#2 := by
  rw [rspKind_eq_iff, errWord_toNat, BitVec.toNat_ofNat]
  omega

/-! ### The table words -/

theorem presentMark_eq_true_iff (w : TblWord) : presentMark w = true ↔ w.toNat / 2 ^ 31 = 1 := by
  rw [presentMark, getLsbD_eq_true_iff]
  omega

theorem lastMark_eq_true_iff (w : TblWord) : lastMark w = true ↔ w.toNat / 2 ^ 30 % 2 = 1 :=
  getLsbD_eq_true_iff w 30

theorem tripleOf_rc_toNat (w : TblWord) : (tripleOf w).rc.toNat = w.toNat / 2 ^ 16 % 256 :=
  field_toNat w 16 8

theorem tripleOf_tc_toNat (w : TblWord) : (tripleOf w).tc.toNat = w.toNat / 2 ^ 8 % 256 :=
  field_toNat w 8 8

theorem tripleOf_dc_toNat (w : TblWord) : (tripleOf w).dc.toNat = w.toNat % 256 :=
  (field_toNat w 0 8).trans (by omega)

theorem tblWord_toNat (p l : Bool) (t : Triple) :
    (tblWord p l t).toNat =
      p.toNat * 2 ^ 31 + l.toNat * 2 ^ 30 + t.rc.toNat * 2 ^ 16 + t.tc.toNat * 2 ^ 8 + t.dc.toNat := by
  simp only [tblWord, append_toNat, BitVec.toNat_ofBool, BitVec.toNat_ofNat]
  omega

theorem presentMark_tblWord (p l : Bool) (t : Triple) : presentMark (tblWord p l t) = p := by
  have hl := l.toNat_le
  rw [Bool.eq_iff_iff, presentMark_eq_true_iff, tblWord_toNat, ← Bool.toNat_eq_one]
  omega

theorem lastMark_tblWord (p l : Bool) (t : Triple) : lastMark (tblWord p l t) = l := by
  have hl := l.toNat_le
  rw [Bool.eq_iff_iff, lastMark_eq_true_iff, tblWord_toNat, ← Bool.toNat_eq_one]
  omega

theorem Triple.eq_of_toNat_eq {t u : Triple} (hrc : t.rc.toNat = u.rc.toNat)
    (htc : t.tc.toNat = u.tc.toNat) (hdc : t.dc.toNat = u.dc.toNat) : t = u := by
  cases t; cases u
  simp_all [BitVec.toNat_inj]

theorem tripleOf_tblWord (p l : Bool) (t : Triple) : tripleOf (tblWord p l t) = t := by
  apply Triple.eq_of_toNat_eq
  · rw [tripleOf_rc_toNat, tblWord_toNat]; omega
  · rw [tripleOf_tc_toNat, tblWord_toNat]; omega
  · rw [tripleOf_dc_toNat, tblWord_toNat]; omega

end Sys2Proof.Machine
end

section
/-! SUPPORT. The decoder by the ranges of the command words: each row of the opcode table is one range
(30_encoding.md R62 to R64), the words between them are illegal (R67), and `encode` and `decode` are
inverse to each other. -/

namespace Sys2Proof.Machine

/-! ### Each row is a range -/

theorem matches_unpackRow_iff (c : CmdWord) :
    c &&& unpackRow.mask = unpackRow.bits ↔ c.toNat < 0x800 := by
  refine (and_allOnes_shiftLeft_eq_iff c 0x0000#16 11).trans ?_
  rw [BitVec.toNat_ofNat]
  omega

theorem matches_fmtRow_iff (c : CmdWord) :
    c &&& fmtRow.mask = fmtRow.bits ↔ 0x4000 ≤ c.toNat ∧ c.toNat < 0x4020 := by
  refine (and_allOnes_shiftLeft_eq_iff c 0x4000#16 5).trans ?_
  rw [BitVec.toNat_ofNat]
  omega

theorem matches_verRow_iff (c : CmdWord) :
    c &&& verRow.mask = verRow.bits ↔ 0x8000 ≤ c.toNat ∧ c.toNat < 0x8040 := by
  refine (and_allOnes_shiftLeft_eq_iff c 0x8000#16 6).trans ?_
  rw [BitVec.toNat_ofNat]
  omega

theorem illegalWord_eq_true_iff (c : CmdWord) :
    illegalWord c = true ↔
      (0x0800 ≤ c.toNat ∧ c.toNat ≤ 0x3FFF) ∨ (0x4020 ≤ c.toNat ∧ c.toNat ≤ 0x7FFF) ∨
        (0x8040 ≤ c.toNat ∧ c.toNat ≤ 0xBFFF) ∨ 0xC000 ≤ c.toNat := by
  simp only [illegalWord, Bool.or_eq_true, decide_eq_true_eq]
  omega

/-! ### The decoder on each range -/

/-- The decoder as the tests of the opcode table's rows, in its order (30_encoding.md R77). -/
theorem decode_eq (c : CmdWord) :
    decode c =
      if c &&& unpackRow.mask = unpackRow.bits then
        .instr (.unpack (c.extractLsb' 0 8) (c.extractLsb' 8 3))
      else if c &&& fmtRow.mask = fmtRow.bits then .instr (.fmt (c.extractLsb' 0 5))
      else if c &&& verRow.mask = verRow.bits then .instr (.ver (c.extractLsb' 0 6))
      else .illegal c := rfl

theorem decode_of_unpack_range {c : CmdWord} (h : c.toNat < 0x800) :
    decode c = .instr (.unpack (c.extractLsb' 0 8) (c.extractLsb' 8 3)) := by
  rw [decode_eq, if_pos ((matches_unpackRow_iff c).2 h)]

theorem decode_of_fmt_range {c : CmdWord} (h : 0x4000 ≤ c.toNat ∧ c.toNat < 0x4020) :
    decode c = .instr (.fmt (c.extractLsb' 0 5)) := by
  have hu : ¬ c &&& unpackRow.mask = unpackRow.bits := by rw [matches_unpackRow_iff]; omega
  rw [decode_eq, if_neg hu, if_pos ((matches_fmtRow_iff c).2 h)]

theorem decode_of_ver_range {c : CmdWord} (h : 0x8000 ≤ c.toNat ∧ c.toNat < 0x8040) :
    decode c = .instr (.ver (c.extractLsb' 0 6)) := by
  have hu : ¬ c &&& unpackRow.mask = unpackRow.bits := by rw [matches_unpackRow_iff]; omega
  have hf : ¬ c &&& fmtRow.mask = fmtRow.bits := by rw [matches_fmtRow_iff]; omega
  rw [decode_eq, if_neg hu, if_neg hf, if_pos ((matches_verRow_iff c).2 h)]

theorem decode_of_illegalWord {c : CmdWord} (h : illegalWord c = true) : decode c = .illegal c := by
  rw [illegalWord_eq_true_iff] at h
  have hu : ¬ c &&& unpackRow.mask = unpackRow.bits := by rw [matches_unpackRow_iff]; omega
  have hf : ¬ c &&& fmtRow.mask = fmtRow.bits := by rw [matches_fmtRow_iff]; omega
  have hv : ¬ c &&& verRow.mask = verRow.bits := by rw [matches_verRow_iff]; omega
  rw [decode_eq, if_neg hu, if_neg hf, if_neg hv]

/-- A command word lies in the range of one row, or is illegal. -/
theorem cmdWord_ranges (c : CmdWord) :
    c.toNat < 0x800 ∨ (0x4000 ≤ c.toNat ∧ c.toNat < 0x4020) ∨
      (0x8000 ≤ c.toNat ∧ c.toNat < 0x8040) ∨ illegalWord c = true := by
  rw [illegalWord_eq_true_iff]
  omega

/-! ### Encoding and decoding -/

theorem encode_unpack_toNat (version : BitVec 8) (level : BitVec 3) :
    (encode (.unpack version level)).toNat = level.toNat * 256 + version.toNat := by
  simp only [encode, append_toNat, BitVec.toNat_ofNat]
  omega

theorem encode_fmt_toNat (data : BitVec 5) : (encode (.fmt data)).toNat = 0x4000 + data.toNat := by
  simp only [encode, append_toNat, BitVec.toNat_ofNat]
  omega

theorem encode_ver_toNat (data : BitVec 6) : (encode (.ver data)).toNat = 0x8000 + data.toNat := by
  simp only [encode, append_toNat, BitVec.toNat_ofNat]
  omega

/-- Each format's word lies in its row's range, and its fields are the operands
(30_encoding.md R62 to R65). -/
theorem decode_encode (i : Instr) : decode (encode i) = .instr i := by
  cases i with
  | unpack version level =>
    have hn := encode_unpack_toNat version level
    have hversion : (encode (.unpack version level)).extractLsb' 0 8 = version := by
      apply BitVec.eq_of_toNat_eq; rw [field_toNat, hn]; omega
    have hlevel : (encode (.unpack version level)).extractLsb' 8 3 = level := by
      apply BitVec.eq_of_toNat_eq; rw [field_toNat, hn]; omega
    rw [decode_of_unpack_range (by omega), hversion, hlevel]
  | fmt data =>
    have hn := encode_fmt_toNat data
    have hdata : (encode (.fmt data)).extractLsb' 0 5 = data := by
      apply BitVec.eq_of_toNat_eq; rw [field_toNat, hn]; omega
    rw [decode_of_fmt_range (by omega), hdata]
  | ver data =>
    have hn := encode_ver_toNat data
    have hdata : (encode (.ver data)).extractLsb' 0 6 = data := by
      apply BitVec.eq_of_toNat_eq; rw [field_toNat, hn]; omega
    rw [decode_of_ver_range (by omega), hdata]

/-- A word in a row's range is made of the row's fixed bits and its fields: no bit is dropped. -/
theorem encode_of_decode {c : CmdWord} {i : Instr} (h : decode c = .instr i) : encode i = c := by
  apply BitVec.eq_of_toNat_eq
  rcases cmdWord_ranges c with hr | hr | hr | hr
  · cases (decode_of_unpack_range hr).symm.trans h
    rw [encode_unpack_toNat, field_toNat, field_toNat]; omega
  · cases (decode_of_fmt_range hr).symm.trans h
    rw [encode_fmt_toNat, field_toNat]; omega
  · cases (decode_of_ver_range hr).symm.trans h
    rw [encode_ver_toNat, field_toNat]; omega
  · cases (decode_of_illegalWord hr).symm.trans h

theorem decode_eq_instr_iff {c : CmdWord} {i : Instr} : decode c = .instr i ↔ c = encode i :=
  ⟨fun h => (encode_of_decode h).symm, fun h => h ▸ decode_encode i⟩

/-- A word decodes to an operation exactly when it lies in a row's range. -/
theorem decodes_iff (c : CmdWord) :
    (∃ i, decode c = .instr i) ↔
      c.toNat < 0x800 ∨ (0x4000 ≤ c.toNat ∧ c.toNat < 0x4020) ∨
        (0x8000 ≤ c.toNat ∧ c.toNat < 0x8040) := by
  constructor
  · rintro ⟨i, h⟩
    have hlegal : ¬ illegalWord c = true := fun hi => by cases (decode_of_illegalWord hi).symm.trans h
    have := cmdWord_ranges c
    tauto
  · rintro (hr | hr | hr)
    · exact ⟨_, decode_of_unpack_range hr⟩
    · exact ⟨_, decode_of_fmt_range hr⟩
    · exact ⟨_, decode_of_ver_range hr⟩

/-! ### The opcode table -/

/-- Every instruction's word is a word of its row (30_encoding.md R62 to R64). -/
theorem fitsItsRow (i : Instr) : Laws.FitsItsRow.Statement i := by
  cases i with
  | unpack version level => exact Laws.FitsItsRow.unpack version level
  | fmt data => exact Laws.FitsItsRow.fmt data
  | ver data => exact Laws.FitsItsRow.ver data

theorem row_matches_iff {r : OpcodeRow} (hr : r ∈ opcodeTable) (c : CmdWord) :
    c &&& r.mask = r.bits ↔ ∃ i, decode c = .instr i ∧ rowOf i = r := by
  constructor
  · intro h
    obtain rfl | rfl | rfl : r = unpackRow ∨ r = fmtRow ∨ r = verRow := by
      simpa [opcodeTable] using hr
    · exact ⟨_, decode_of_unpack_range ((matches_unpackRow_iff c).1 h), rfl⟩
    · exact ⟨_, decode_of_fmt_range ((matches_fmtRow_iff c).1 h), rfl⟩
    · exact ⟨_, decode_of_ver_range ((matches_verRow_iff c).1 h), rfl⟩
  · rintro ⟨i, hd, rfl⟩
    obtain ⟨-, hbits, -⟩ := fitsItsRow i
    rwa [encode_of_decode hd] at hbits

end Sys2Proof.Machine
end

section
/-! SUPPORT. The reference responses (30_encoding.md R78): the bits of the table they look at, their
shapes and where they end. -/

namespace Sys2Proof.Machine

/-! ### The table bits that are looked at -/

section
variable {m m' : Memory} {version : BitVec 8} {lvl i : BitVec 2}

/-- Reading on after two words with the same triple and the same `last` mark. -/
theorem triplesFrom_cons_congr {is : List (BitVec 2)}
    (htriple : tripleOf (m.read (tblAddr version lvl i)) = tripleOf (m'.read (tblAddr version lvl i)))
    (hlast : lastMark (m.read (tblAddr version lvl i)) = lastMark (m'.read (tblAddr version lvl i)))
    (hrest : lastMark (m.read (tblAddr version lvl i)) = false →
      triplesFrom m version lvl is = triplesFrom m' version lvl is) :
    triplesFrom m version lvl (i :: is) = triplesFrom m' version lvl (i :: is) := by
  cases hl : lastMark (m.read (tblAddr version lvl i)) with
  | true => rw [triplesFrom_cons_last hl, triplesFrom_cons_last (hlast ▸ hl), htriple]
  | false => rw [triplesFrom_cons_more hl, triplesFrom_cons_more (hlast ▸ hl), htriple, hrest hl]

/-- With no word before `i` marked `last`, nor word `i`, none is marked up to the next. -/
theorem unmarked_succ (hi : i ≠ 3#2)
    (hbefore : ∀ j, j < i → lastMark (m.read (tblAddr version lvl j)) = false)
    (hat : lastMark (m.read (tblAddr version lvl i)) = false) :
    ∀ j, j < i + 1#2 → lastMark (m.read (tblAddr version lvl j)) = false := fun j hj =>
  (tidx_lt_succ hi hj).elim (hbefore j) fun hji => hji ▸ hat

/-- The mark of the last word an entry can have is not looked at (30_encoding.md R74). -/
theorem triplesFrom_singleton (m : Memory) (version : BitVec 8) (lvl i : BitVec 2) :
    triplesFrom m version lvl [i] = [tripleOf (m.read (tblAddr version lvl i))] := by
  simp [triplesFrom]

/-- Two entries give the same triples when each word that is reached has the same triple in both, and,
before the fourth, the same mark (30_encoding.md R74). -/
theorem triplesFrom_tripleIndices_congr
    (h : ∀ i : BitVec 2, (∀ j, j < i → lastMark (m.read (tblAddr version lvl j)) = false) →
      tripleOf (m.read (tblAddr version lvl i)) = tripleOf (m'.read (tblAddr version lvl i)) ∧
      (i ≠ 3#2 →
        lastMark (m.read (tblAddr version lvl i)) = lastMark (m'.read (tblAddr version lvl i)))) :
    triplesFrom m version lvl (tripleIndices 4) = triplesFrom m' version lvl (tripleIndices 4) := by
  have before₀ : ∀ j, j < 0#2 → lastMark (m.read (tblAddr version lvl j)) = false :=
    fun j hj => absurd hj BitVec.not_lt_zero
  rw [tripleIndices_four]
  refine triplesFrom_cons_congr (h _ before₀).1 ((h _ before₀).2 (by decide)) fun hat₀ => ?_
  have before₁ := unmarked_succ (by decide) before₀ hat₀
  refine triplesFrom_cons_congr (h _ before₁).1 ((h _ before₁).2 (by decide)) fun hat₁ => ?_
  have before₂ := unmarked_succ (by decide) before₁ hat₁
  refine triplesFrom_cons_congr (h _ before₂).1 ((h _ before₂).2 (by decide)) fun hat₂ => ?_
  have before₃ := unmarked_succ (by decide) before₂ hat₂
  rw [triplesFrom_singleton, triplesFrom_singleton]
  exact congrArg (· :: []) (h _ before₃).1

end

/-- The response to a command looks at the table through `entry` alone. -/
theorem response_congr {c : Config} {m m' : Memory}
    (h : ∀ version lvl, entry c m version lvl = entry c m' version lvl) (word : CmdWord) :
    response c m word = response c m' word := by
  simp only [response, unpackResponse, h]

/-! ### The shapes -/

theorem response_of_fmt {word : CmdWord} {data : BitVec 5} (h : decode word = .instr (.fmt data))
    (c : Config) (m : Memory) : response c m word = [valueWord (fmtValue c data)] := by
  simp [response, h]

theorem response_of_ver {word : CmdWord} {data : BitVec 6} (h : decode word = .instr (.ver data))
    (c : Config) (m : Memory) : response c m word = [valueWord (verValue c data)] := by
  simp [response, h]

theorem response_of_unpack {word : CmdWord} {version : BitVec 8} {level : BitVec 3}
    (h : decode word = .instr (.unpack version level)) (c : Config) (m : Memory) :
    response c m word = unpackResponse c m version level := by
  simp [response, h]

theorem response_of_illegal {word w : CmdWord} (h : decode word = .illegal w)
    (c : Config) (m : Memory) :
    response c m word = [errWord (errorCode .illegalCommand) w] := by
  simp [response, h]

/-- `UNPACK` responds with one error, or with the descriptors of its entry and `END`
(40_block_unpack.md R91). -/
theorem unpackResponse_cases (c : Config) (m : Memory) (version : BitVec 8) (level : BitVec 3) :
    (∃ k info, unpackResponse c m version level = [errWord k info]) ∨
    ∃ triples, unpackResponse c m version level = descWords triples ++ [endWord] := by
  unfold unpackResponse
  split
  · exact .inl ⟨_, _, rfl⟩
  · split
    · exact .inl ⟨_, _, rfl⟩
    · exact .inr ⟨_, rfl⟩

/-- The words ending at the first whose kind is not `DESC` (30_encoding.md R78). -/
def EndsAtFirstNonDesc (ws : List RspWord) : Prop :=
  ∃ body last, ws = body ++ [last] ∧ rspKind last ≠ 0b01#2 ∧ ∀ w ∈ body, rspKind w = 0b01#2

theorem endsAtFirstNonDesc_singleton {w : RspWord} (h : rspKind w ≠ 0b01#2) :
    EndsAtFirstNonDesc [w] :=
  ⟨[], w, rfl, h, by simp⟩

theorem rspKind_of_mem_descWords {triples : List Triple} {w : RspWord} (h : w ∈ descWords triples) :
    rspKind w = 0b01#2 := by
  obtain ⟨e, -, rfl⟩ := List.mem_map.1 h
  exact rspKind_descWord e.1 e.2

theorem endsAtFirstNonDesc_descWords (triples : List Triple) :
    EndsAtFirstNonDesc (descWords triples ++ [endWord]) :=
  ⟨descWords triples, endWord, rfl, by decide, fun _ => rspKind_of_mem_descWords⟩

end Sys2Proof.Machine
end

section
/-! The obligations of 30_encoding.md. -/

namespace Sys2Proof.Machine

/-- Settles O13: each format's word lies in its row's range and its fields are the operands. -/
theorem decodeInvertsEncode : Obligations.DecodeInvertsEncode := fun i _ => decode_encode i

/-- Settles O14: by the range of the word, whose number is made of its row's bits and its fields. -/
theorem encodeInvertsDecode : Obligations.EncodeInvertsDecode := fun _ _ => encode_of_decode

/-- Settles O15: a row matches a word exactly when it is the row of what the word decodes to, so no two
rows match one word, and a word that no row matches decodes to nothing. -/
theorem decodeFollowsTheOpcodeTable : Obligations.DecodeFollowsTheOpcodeTable := by
  refine ⟨fun c r hr => row_matches_iff hr c, fun c => ⟨fun hd r hr hm => ?_, fun h => ?_⟩, ?_⟩
  · obtain ⟨i, hi, -⟩ := (row_matches_iff hr c).1 hm
    cases hd.symm.trans hi
  · refine decode_of_illegalWord (by_contra fun hlegal => ?_)
    obtain ⟨i, hi⟩ := (decodes_iff c).2 (by have := cmdWord_ranges c; tauto)
    obtain ⟨hmem, -, -⟩ := fitsItsRow i
    exact h _ hmem ((row_matches_iff hmem c).2 ⟨i, hi, rfl⟩)
  · have hnodup : opcodeTable.Pairwise (· ≠ ·) := by decide
    refine hnodup.imp_of_mem fun hp hq hne c hboth => ?_
    obtain ⟨i, hi, rfl⟩ := (row_matches_iff hp c).1 hboth.1
    obtain ⟨j, hj, rfl⟩ := (row_matches_iff hq c).1 hboth.2
    cases hi.symm.trans hj
    exact hne rfl

/-- Settles O16: the ranges are the illegal words, and accepting one raises `IllegalCommand`. -/
theorem illegalRangesAreAnswered : Obligations.IllegalRangesAreAnswered := by
  intro s c hc ha hrange
  have hd := decode_of_illegalWord ((illegalWord_eq_true_iff c).2 hrange)
  have hword : errWord (errorCode .illegalCommand) c = BitVec.ofNat 32 (0xC4000000 + c.toNat) := by
    apply BitVec.eq_of_toNat_eq
    rw [errWord_toNat, BitVec.toNat_ofNat, errorCode, BitVec.toNat_ofNat]
    omega
  calc step s = accept c s.tick.takeCommand := step_of_accepts hc ha
    _ = .next (s.tick.takeCommand.respond (errWord (errorCode .illegalCommand) c)) := by
        simp [accept, hd]
    _ = _ := by rw [hword]; rfl

/-- Settles O17: the operands are the fields of the word they encode to, and of the words under an opcode
only those in the row's range decode. -/
theorem operandsAreTheFields : Obligations.OperandsAreTheFields := by
  refine ⟨fun c version level h => ?_, fun c data h => ?_, fun c data h => ?_, fun n hn => ?_,
    fun n hn => ?_⟩
  · rw [decode_eq_instr_iff.1 h, encode_unpack_toNat]; omega
  · rw [decode_eq_instr_iff.1 h, encode_fmt_toNat]; omega
  · rw [decode_eq_instr_iff.1 h, encode_ver_toNat]; omega
  · rw [decodes_iff, BitVec.toNat_ofNat]; omega
  · rw [decodes_iff, BitVec.toNat_ofNat]; omega

/-- Settles O20: each word's number, and the kind as the quarter of the range it lies in. -/
theorem responseWordsAsNumbers : Obligations.ResponseWordsAsNumbers :=
  ⟨fun v => ⟨valueWord_toNat v, rspKind_valueWord v⟩,
    fun t d => ⟨descWord_toNat t d, rspKind_descWord t d⟩,
    ⟨endWord_toNat, rspKind_endWord⟩,
    fun k info => ⟨errWord_toNat k info, rspKind_errWord k info⟩⟩

/-- Settles O22: each field as digits of the word's number, read back from the number built of them. -/
theorem tableWordFields : Obligations.TableWordFields := fun w =>
  ⟨presentMark_eq_true_iff w, lastMark_eq_true_iff w, tripleOf_rc_toNat w, tripleOf_tc_toNat w,
    tripleOf_dc_toNat w, fun p l t =>
      ⟨presentMark_tblWord p l t, lastMark_tblWord p l t, tripleOf_tblWord p l t⟩⟩

/-- Settles O25: the two tables have the same entries, and a response looks at nothing else. -/
theorem ignoredTableBits : Obligations.IgnoredTableBits := by
  intro c m m' hmax hpresent hwords
  refine response_congr fun version lvl => ?_
  unfold entry
  rw [← hpresent version lvl, hmax]
  split
  case isTrue hp =>
    exact congrArg some (triplesFrom_tripleIndices_congr fun i => hwords version lvl i hp)
  case isFalse => rfl

/-- Settles O46: by what the word decodes to. -/
theorem responseShapes : Obligations.ResponseShapes := by
  intro c m word
  cases hd : decode word with
  | illegal w =>
    rw [response_of_illegal hd]
    exact ⟨by simp, .inr (.inl ⟨_, _, rfl⟩), endsAtFirstNonDesc_singleton (by simp)⟩
  | instr i =>
    cases i with
    | fmt data =>
      rw [response_of_fmt hd]
      exact ⟨fun _ => ⟨_, rfl⟩, .inl ⟨.inl ⟨_, rfl⟩, _, rfl⟩, endsAtFirstNonDesc_singleton (by simp)⟩
    | ver data =>
      rw [response_of_ver hd]
      exact ⟨fun _ => ⟨_, rfl⟩, .inl ⟨.inr ⟨_, rfl⟩, _, rfl⟩, endsAtFirstNonDesc_singleton (by simp)⟩
    | unpack version level =>
      rw [response_of_unpack hd]
      rcases unpackResponse_cases c m version level with ⟨k, info, h⟩ | ⟨triples, h⟩
      · rw [h]
        exact ⟨by simp, .inr (.inl ⟨_, _, rfl⟩), endsAtFirstNonDesc_singleton (by simp)⟩
      · rw [h]
        exact ⟨by simp, .inr (.inr ⟨expand triples, ⟨_, _, rfl⟩, rfl⟩),
          endsAtFirstNonDesc_descWords triples⟩

/-- Settles O12: six words decoded. -/
theorem sampleWordsDecode : Obligations.SampleWordsDecode := by
  unfold Obligations.SampleWordsDecode
  decide

/-- Settles O18: the eight codes one by one. -/
theorem levelCodes : Obligations.LevelCodes := by
  refine ⟨by decide, fun l => ?_, rfl, by decide⟩
  cases l <;> exact ⟨rfl, rfl⟩

/-- Settles O19: the examples computed; a raw word is its own. -/
theorem assembledExamples : Obligations.AssembledExamples :=
  ⟨rfl, rfl, rfl, rfl, fun _ => rfl⟩

end Sys2Proof.Machine
end

section
/-! SUPPORT. The expansion of a list of triples and the response of `UNPACK`, case by case
(40_block_unpack.md R90, R91). -/

namespace Sys2Proof.Machine

/-! ### The expansion, triple by triple -/

@[simp] theorem expand_nil : expand [] = [] := rfl

@[simp] theorem expand_cons (t : Triple) (ts : List Triple) :
    expand (t :: ts) = List.replicate t.rc.toNat (t.tc, t.dc) ++ expand ts := rfl

@[simp] theorem descWords_nil : descWords [] = [] := rfl

theorem descWords_cons (t : Triple) (ts : List Triple) :
    descWords (t :: ts) = List.replicate t.rc.toNat (descWord t.tc t.dc) ++ descWords ts := by
  simp [descWords]

/-- A sum over the descriptors counts each triple's as often as it is repeated. -/
theorem sum_map_expand (f : BitVec 8 × BitVec 8 → Nat) (ts : List Triple) :
    ((expand ts).map f).sum = (ts.map fun t => t.rc.toNat * f (t.tc, t.dc)).sum := by
  induction ts with
  | nil => rfl
  | cons t ts ih => simp [ih]

theorem length_expand (ts : List Triple) :
    (expand ts).length = (ts.map fun t => t.rc.toNat).sum := by
  simpa using sum_map_expand (fun _ => 1) ts

theorem expand_of_rc_zero {ts : List Triple} (h : ∀ t ∈ ts, t.rc = 0#8) : expand ts = [] := by
  induction ts with
  | nil => rfl
  | cons t ts ih =>
    rw [expand_cons, h t List.mem_cons_self, ih fun u hu => h u (List.mem_cons_of_mem t hu)]
    rfl

/-- A repeat count is below 256 (30_encoding.md R73). -/
theorem length_expand_le (ts : List Triple) : (expand ts).length ≤ ts.length * 255 := by
  rw [length_expand]
  induction ts with
  | nil => rfl
  | cons t ts ih =>
    rw [List.map_cons, List.sum_cons, List.length_cons]
    omega

/-! ### The response of `UNPACK`, case by case -/

/-- A valid level field names the level of its row, an invalid one none (30_encoding.md R66). -/
theorem levelOfField_row (level : BitVec 3) :
    (levelOfField level).map Level.row =
      if levelInvalid level then none else some (rowIndex level) := by
  revert level; decide

theorem levelOfField_of_valid {level : BitVec 3} (hl : levelInvalid level = false) :
    ∃ l, levelOfField level = some l ∧ l.row = rowIndex level := by
  simpa [hl] using levelOfField_row level

theorem unpackResponse_of_invalid {level : BitVec 3} (hl : levelInvalid level = true) (c : Config)
    (m : Memory) (version : BitVec 8) :
    unpackResponse c m version level =
      [errWord (errorCode .unknownErrorLevel) (level.setWidth 16)] := by
  have hfield : levelOfField level = none := by simpa [hl] using levelOfField_row level
  simp [unpackResponse, hfield]

theorem unpackResponse_of_absent {level : BitVec 3} (hl : levelInvalid level = false) {c : Config}
    {m : Memory} {version : BitVec 8} (he : entry c m version (rowIndex level) = none) :
    unpackResponse c m version level =
      [errWord (errorCode .unknownVersion) (version.setWidth 16)] := by
  obtain ⟨l, hfield, hrow⟩ := levelOfField_of_valid hl
  simp [unpackResponse, hfield, hrow, he]

theorem unpackResponse_of_entry {level : BitVec 3} (hl : levelInvalid level = false) {c : Config}
    {m : Memory} {version : BitVec 8} {triples : List Triple}
    (he : entry c m version (rowIndex level) = some triples) :
    unpackResponse c m version level = descWords triples ++ [endWord] := by
  obtain ⟨l, hfield, hrow⟩ := levelOfField_of_valid hl
  simp [unpackResponse, hfield, hrow, he]

theorem entry_of_absent {m : Memory} {version : BitVec 8} {lvl : BitVec 2}
    (hp : presentMark (m.read (tblAddr version lvl 0#2)) = false) (c : Config) :
    entry c m version lvl = none := by
  simp [entry, hp]

theorem entry_of_present {m : Memory} {version : BitVec 8} {lvl : BitVec 2}
    (hp : presentMark (m.read (tblAddr version lvl 0#2)) = true) (c : Config) :
    entry c m version lvl = some (triplesFrom m version lvl (tripleIndices c.maxTriples)) := by
  simp [entry, hp]

/-! ### The size of a response -/

theorem length_triplesFrom_le (m : Memory) (version : BitVec 8) (lvl : BitVec 2)
    (is : List (BitVec 2)) : (triplesFrom m version lvl is).length ≤ is.length := by
  induction is with
  | nil => rfl
  | cons i is ih =>
    cases hl : lastMark (m.read (tblAddr version lvl i)) with
    | true => simp [triplesFrom_cons_last hl]
    | false => simpa [triplesFrom_cons_more hl] using ih

/-- An entry has at most `MAX_TRIPLES` triples (20_memory.md R44; 40_block_unpack.md R102). -/
theorem length_entry_le {c : Config} {m : Memory} {version : BitVec 8} {lvl : BitVec 2}
    {triples : List Triple} (h : entry c m version lvl = some triples) :
    triples.length ≤ c.maxTriples := by
  have hindices : (tripleIndices c.maxTriples).length = c.maxTriples := by simp [tripleIndices]
  cases hp : presentMark (m.read (tblAddr version lvl 0#2)) with
  | false => simp [entry_of_absent hp] at h
  | true =>
    rw [entry_of_present hp] at h
    cases h
    exact (length_triplesFrom_le ..).trans hindices.le

/-- `UNPACK` responds with one word, or with `END` after at most 255 descriptors for each of `MAX_TRIPLES`
triples (40_block_unpack.md R91, R102). -/
theorem length_unpackResponse (c : Config) (m : Memory) (version : BitVec 8) (level : BitVec 3) :
    1 ≤ (unpackResponse c m version level).length ∧
      (unpackResponse c m version level).length ≤ c.maxTriples * 255 + 1 := by
  cases hl : levelInvalid level with
  | true => simp [unpackResponse_of_invalid hl]
  | false =>
    cases he : entry c m version (rowIndex level) with
    | none => simp [unpackResponse_of_absent hl he]
    | some triples =>
      have hlen : (unpackResponse c m version level).length = (expand triples).length + 1 := by
        simp [unpackResponse_of_entry hl he, descWords]
      have hle := (length_expand_le triples).trans (Nat.mul_le_mul_right 255 (length_entry_le he))
      omega

end Sys2Proof.Machine
end

section
/-! SUPPORT. The steps against the reference responses (40_block_unpack.md R103): the words a loaded triple
owes, the words an accepted command owes, and the account along a run. -/

namespace Sys2Proof.Machine

/-! ### The words still owed -/

@[simp] theorem State.pending_respond (w : RspWord) (s : State) : (s.respond w).pending = [w] := rfl

theorem State.pending_of_idle {s : State} (hs : s.st = .idle) : s.pending = [] := by
  simp [State.pending, hs]

/-- With the triple at `i` loaded, the words owed are those of the entry from `i` on, and `END`: the `lastf`
that `load` writes (40_block_unpack.md R93) stops where the entry does (20_memory.md R44). -/
theorem State.pending_load {s : State} (hmax : s.cfg.maxTriples = 4) (hs : s.st = .seq)
    (i : BitVec 2) :
    (s.load (s.table.read (tblAddr s.ver s.lvl i)) i).pending =
      descWords (triplesFrom s.table s.ver s.lvl ((tripleIndices 4).drop i.toNat)) ++ [endWord] := by
  have hdrop : (tripleIndices 4).drop i.toNat = i :: (tripleIndices 4).drop (i.toNat + 1) := by
    revert i; decide
  rw [hdrop]
  cases hl : lastMark (s.table.read (tblAddr s.ver s.lvl i)) with
  | true =>
    simp [State.pending, hs, hmax, lastFlag_four, hl, triplesFrom_cons_last, descWords_cons]
  | false =>
    rw [triplesFrom_cons_more hl, descWords_cons]
    by_cases hi : i = 3#2
    · simp [State.pending, hs, hmax, lastFlag_four, hi, triplesFrom, tripleIndices_four]
    · simp [State.pending, hs, hmax, lastFlag_four, hl, hi]

/-- An accepted command owes exactly its response (40_block_unpack.md R103). -/
theorem accept_pending {c : CmdWord} {s t : State} (hmax : s.cfg.maxTriples = 4)
    (h : accept c s = .next t) : t.pending = response s.cfg s.table c := by
  cases hd : decode c with
  | illegal w =>
    rw [accept, hd] at h
    cases h
    rw [response_of_illegal hd, State.raise_eq, State.pending_respond]
  | instr i =>
    rw [accept_of_decode hd] at h
    cases i with
    | fmt data => cases h; rw [response_of_fmt hd, State.pending_respond]
    | ver data => cases h; rw [response_of_ver hd, State.pending_respond]
    | unpack version level =>
      rw [response_of_unpack hd]
      rcases execUnpack_cases version level s with ⟨hl, ha⟩ | ⟨hl, hp, ha⟩ | ⟨hl, hp, ha⟩ <;>
        cases ha.symm.trans h
      · rw [unpackResponse_of_invalid hl, State.pending_respond]
      · rw [unpackResponse_of_absent hl (entry_of_absent hp _), State.pending_respond]
      · rw [unpackResponse_of_entry hl (entry_of_present hp _), hmax]
        exact State.pending_load (s := s.startSeq version (rowIndex level)) hmax rfl 0#2

/-! ### The account of words sent, owed and to come -/

/-- The fourth triple of an entry, once loaded, is flagged as the last: the one part of 10_state.md R32 (b)
that the account needs. Every step keeps it, whatever the form of the table. -/
def State.FourthIsLast (s : State) : Prop := s.st = .seq → s.tidx = 3#2 → s.lastf = true

theorem State.Inv.fourthIsLast {s : State} (h : s.Inv) : s.FourthIsLast := fun hs ht =>
  (h.seq hs).lastf.2 (.inr ht)

theorem State.fourthIsLast_of_idle {s : State} (hs : s.st = .idle) : s.FourthIsLast := fun h => by
  simp [hs] at h

theorem State.fourthIsLast_load {s : State} (hmax : s.cfg.maxTriples = 4) (w : TblWord)
    (i : BitVec 2) : (s.load w i).FourthIsLast := fun _ ht => by
  simpa [hmax, lastFlag_four] using .inr ht

theorem State.fourthIsLast_advance {s : State} (hmax : s.cfg.maxTriples = 4) :
    s.advance.FourthIsLast := by
  cases hl : s.lastf with
  | true => rw [s.advance_last hl]; exact nofun
  | false => rw [s.advance_next hl]; exact State.fourthIsLast_load hmax _ _

theorem accept_fourthIsLast {c : CmdWord} {s t : State} (hmax : s.cfg.maxTriples = 4)
    (h : accept c s = .next t) : t.FourthIsLast := by
  rcases accept_cases c s with ⟨w, ha⟩ | ⟨version, level, -, -, -, ha⟩ <;> cases ha.symm.trans h
  · exact nofun
  · exact State.fourthIsLast_load (s := s.startSeq version (rowIndex level)) hmax _ _

theorem step_keeps_fourthIsLast {s t : State} (h : s.FourthIsLast) (hstep : step s = .next t) :
    t.FourthIsLast := by
  obtain ⟨hc, ⟨-, rfl⟩ | ⟨-, rfl, -⟩ | ⟨-, -, -, c, rest, -, ha⟩ | ⟨-, -, -, rfl⟩ |
    ⟨-, -, -, rfl⟩ | ⟨-, -, -, -, rfl⟩⟩ := step_cases hstep
  · exact State.fourthIsLast_of_idle rfl
  · exact h
  · exact accept_fourthIsLast (s := s.tick.takeCommand) (wf_maxTriples hc) ha
  · exact State.fourthIsLast_of_idle rfl
  · exact State.fourthIsLast_advance (s := s.tick) (wf_maxTriples hc)
  · exact h

/-- The next index, before the fourth, does not wrap. -/
theorem tidx_succ_toNat {i : BitVec 2} (hi : i ≠ 3#2) : (i + 1#2).toNat = i.toNat + 1 := by
  revert i; decide

/-- `ADVANCE` sends nothing and changes nothing of what is owed (40_block_unpack.md R95). -/
theorem State.pending_advance {s : State} (hmax : s.cfg.maxTriples = 4) (hs : s.st = .seq)
    (hz : s.rep = 0#8) (hlast : s.FourthIsLast) : s.advance.pending = s.pending := by
  cases hl : s.lastf with
  | true => simp [s.advance_last hl, State.pending, hs, hz, hl]
  | false =>
    have hidx : s.tidx ≠ 3#2 := fun ht => by simp [hlast hs ht] at hl
    rw [s.advance_next hl, State.pending_load hmax hs, tidx_succ_toNat hidx]
    simp [State.pending, hs, hz, hl, hmax]

/-- `EMIT` sends the first of the words owed (40_block_unpack.md R94). -/
theorem State.pending_emit {s : State} (hs : s.st = .seq) (hz : s.rep ≠ 0#8) :
    s.pending = descWord s.tc s.dc :: s.emit.pending := by
  have hrep : s.rep.toNat = (s.rep - 1#8).toNat + 1 := by bv_omega
  simp only [State.pending, State.emit_st, hs]
  rw [hrep, List.replicate_succ]
  rfl

/-- A step without reset moves words within the account and changes none (40_block_unpack.md R103). -/
theorem step_keeps_account {s t : State} (hlast : s.FourthIsLast) (hr : s.edge.rst = false)
    (h : step s = .next t) : t.account = s.account := by
  obtain ⟨hc, ⟨hr', -⟩ | ⟨-, rfl, -⟩ | ⟨-, hs, -, c, rest, ho, ha⟩ | ⟨-, hs, -, rfl⟩ |
    ⟨-, hs, hz, rfl⟩ | ⟨-, hs, hz, -, rfl⟩⟩ := step_cases h
  · simp [hr] at hr'
  · rfl
  · obtain ⟨hcfg, htable, hoffered, hsent, -⟩ := accept_frame ha
    have hpending : t.pending = response s.cfg s.table c :=
      accept_pending (s := s.tick.takeCommand) (wf_maxTriples hc) ha
    simp [State.account, hcfg, htable, hoffered, hsent, hpending, State.pending_of_idle hs, ho,
      responses]
  · simp [State.account, State.pending, hs]
  · have hpending : s.tick.advance.pending = s.pending :=
      State.pending_advance (s := s.tick) (wf_maxTriples hc) hs hz hlast
    simp [State.account, hpending]
  · have hpending : s.pending = descWord s.tc s.dc :: s.tick.emit.pending :=
      State.pending_emit (s := s.tick) hs hz
    simp [State.account, hpending]

/-! ### Runs without a reset -/

/-- Every step uses up one edge of the schedule (10_state.md R27). -/
theorem step_edges {s t : State} (h : step s = .next t) : t.edges = s.edges.tail := by
  obtain ⟨-, ⟨-, rfl⟩ | ⟨-, rfl, -⟩ | ⟨-, -, -, c, rest, -, ha⟩ | ⟨-, -, -, rfl⟩ |
    ⟨-, -, -, rfl⟩ | ⟨-, -, -, -, rfl⟩⟩ := step_cases h
  · simp
  · simp
  · obtain ⟨-, -, -, -, hedges⟩ := accept_frame ha
    exact hedges
  · simp
  · simp
  · simp

theorem State.NoReset.edge {s : State} (h : s.NoReset) : s.edge.rst = false := by
  cases he : s.edges with
  | nil => simp [State.edge, he, Edge.ready]
  | cons e es => simpa [State.edge, he] using h e (by simp [he])

theorem State.NoReset.step {s t : State} (h : s.NoReset) (hstep : Machine.step s = .next t) :
    t.NoReset := fun e he => h e (List.mem_of_mem_tail (step_edges hstep ▸ he))

/-- A run without reset keeps the account (40_block_unpack.md R103). -/
theorem runSteps_keeps_account {k : Nat} {s t : State} (hlast : s.FourthIsLast) (hr : s.NoReset)
    (h : runSteps k s = .next t) : t.account = s.account := by
  induction k generalizing s with
  | zero => cases h; rfl
  | succ k ih =>
    obtain ⟨u, hu, h⟩ := runSteps_succ_next h
    exact (ih (step_keeps_fourthIsLast hlast hu) (hr.step hu) h).trans
      (step_keeps_account hlast hr.edge hu)

/-- What an idle unit has sent and the responses of the words offered are its whole account. -/
theorem State.account_of_idle {s : State} (hs : s.st = .idle) :
    s.account = s.sent ++ responses s.cfg s.table s.offered := by
  simp [State.account, State.pending_of_idle hs]

/-- No run writes the constants or the table (10_state.md R25; 20_memory.md R41). -/
theorem runSteps_keeps_parameters {k : Nat} {s t : State} (h : runSteps k s = .next t) :
    t.cfg = s.cfg ∧ t.table = s.table := by
  obtain ⟨htable, hcfg, -⟩ := noRunWritesTableOrConstants k s t h
  exact ⟨hcfg, htable⟩

end Sys2Proof.Machine
end

section
/-! SUPPORT. `UNPACK` in the words of its statements: the response words and the loaded registers made from
numbers, and the table word a step uses (40_block_unpack.md R92, R93, R100). -/

namespace Sys2Proof.Machine

/-! ### Words made from their numbers -/

theorem descWord_eq_ofNat (t d : BitVec 8) :
    descWord t d = BitVec.ofNat 32 (0x40000000 + t.toNat * 256 + d.toNat) :=
  (BitVec.toNat_eq_nat.1 (descWord_toNat t d)).2

theorem errWord_unknownErrorLevel_eq_ofNat (level : BitVec 3) :
    errWord (errorCode .unknownErrorLevel) (level.setWidth 16) =
      BitVec.ofNat 32 (0xC0000000 + level.toNat) := by
  refine (BitVec.toNat_eq_nat.1 ?_).2
  simp only [errWord_toNat, errorCode, BitVec.toNat_ofNat, BitVec.toNat_setWidth]
  omega

theorem errWord_unknownVersion_eq_ofNat (version : BitVec 8) :
    errWord (errorCode .unknownVersion) (version.setWidth 16) =
      BitVec.ofNat 32 (0xC2000000 + version.toNat) := by
  refine (BitVec.toNat_eq_nat.1 ?_).2
  simp only [errWord_toNat, errorCode, BitVec.toNat_ofNat, BitVec.toNat_setWidth]
  omega

theorem levelInvalid_eq_true_iff (level : BitVec 3) : levelInvalid level = true ↔ 4 ≤ level.toNat := by
  simp [levelInvalid]

theorem levelInvalid_eq_false_iff (level : BitVec 3) :
    levelInvalid level = false ↔ level.toNat < 4 := by
  simp [levelInvalid]

theorem rowIndex_eq_ofNat (level : BitVec 3) : rowIndex level = BitVec.ofNat 2 level.toNat := by
  revert level; decide

theorem presentMark_eq_false_iff (w : TblWord) : presentMark w = false ↔ w.toNat < 2 ^ 31 := by
  rw [← Bool.not_eq_true, presentMark_eq_true_iff]
  omega

/-- The first word of the entry of a valid level (20_memory.md R43). -/
theorem tblAddr_rowIndex_zero_toNat {level : BitVec 3} (hl : level.toNat < 4) (version : BitVec 8) :
    (tblAddr version (rowIndex level) 0#2).toNat = version.toNat * 16 + level.toNat * 4 := by
  rw [tblAddr_toNat, rowIndex_eq_ofNat, BitVec.toNat_ofNat, BitVec.toNat_ofNat]
  omega

/-- `load` with the fields of the word as numbers (40_block_unpack.md R93; 30_encoding.md R73). -/
theorem State.load_eq_ofNat (w : TblWord) (i : BitVec 2) (s : State) :
    s.load w i = { s with
      tidx := i, rep := BitVec.ofNat 8 (w.toNat / 2 ^ 16), tc := BitVec.ofNat 8 (w.toNat / 2 ^ 8),
      dc := BitVec.ofNat 8 w.toNat, lastf := lastFlag s.cfg.maxTriples w i } := by
  have hrc : (tripleOf w).rc = BitVec.ofNat 8 (w.toNat / 2 ^ 16) :=
    BitVec.eq_of_toNat_eq ((tripleOf_rc_toNat w).trans (BitVec.toNat_ofNat _ 8).symm)
  have htc : (tripleOf w).tc = BitVec.ofNat 8 (w.toNat / 2 ^ 8) :=
    BitVec.eq_of_toNat_eq ((tripleOf_tc_toNat w).trans (BitVec.toNat_ofNat _ 8).symm)
  have hdc : (tripleOf w).dc = BitVec.ofNat 8 w.toNat :=
    BitVec.eq_of_toNat_eq ((tripleOf_dc_toNat w).trans (BitVec.toNat_ofNat _ 8).symm)
  rw [State.load, hrc, htc, hdc]

/-- `lastf` as numbers: bit 30 of the word, or the fourth index (40_block_unpack.md R93). -/
theorem lastFlag_four_eq_decide (w : TblWord) (i : BitVec 2) :
    lastFlag 4 w i = decide (w.toNat / 2 ^ 30 % 2 = 1 ∨ i.toNat = 3) := by
  have hidx : i = 3#2 ↔ i.toNat = 3 := BitVec.toNat_inj.symm
  rw [lastFlag_four, Bool.eq_iff_iff]
  simp [lastMark_eq_true_iff, hidx]

/-! ### What an accepted instruction can do -/

/-- The two outcomes of `exec`: those of accepting the instruction's word. -/
theorem exec_cases (i : Instr) (s : State) :
    (∃ w, exec i s = .next (s.respond w)) ∨
    ∃ version level, i = .unpack version level ∧
      exec i s = .next ((s.startSeq version (rowIndex level)).load
        (s.table.read (tblAddr version (rowIndex level) 0#2)) 0#2) := by
  rw [← accept_of_decode (decode_encode i)]
  rcases accept_cases (encode i) s with h | ⟨version, level, hd, -, -, h⟩
  · exact .inl h
  · exact .inr ⟨version, level, Decoded.instr.inj ((decode_encode i).symm.trans hd), h⟩

/-! ### The table word a step uses -/

theorem State.tableReadAt_of_not_idle {s : State} (hr : s.edge.rst = false) (hs : s.st ≠ .idle) :
    s.tableReadAt = s.advanceAddr := by
  simp [State.tableReadAt, hr, State.cmdTransfer_of_not_idle hs]

/-- The table word used when a word is accepted (40_block_unpack.md R92, R100). -/
theorem State.Accepts.tableReadAt_eq_some_iff {s : State} {c : CmdWord} (h : s.Accepts c)
    (a : TblAddr) :
    s.tableReadAt = some a ↔ ∃ version level, decode c = .instr (.unpack version level) ∧
      levelInvalid level = false ∧ tblAddr version (rowIndex level) 0#2 = a := by
  have hadv : s.advanceAddr = none := by simp [State.advanceAddr, h.idle]
  have hcmd : s.cmd = some c := h.word
  cases hd : decode c with
  | illegal w => simp [State.tableReadAt, h.noReset, h.cmdTransfer, hcmd, hd, hadv]
  | instr i => cases i <;> simp [State.tableReadAt, h.noReset, h.cmdTransfer, hcmd, hd, hadv]

/-- Accepting a word uses the table at the first word of a validly levelled `UNPACK` alone
(40_block_unpack.md R92, R100). -/
theorem accept_of_table_agrees {c : CmdWord} {s t : State} {m : Memory}
    (hread : ∀ version level, decode c = .instr (.unpack version level) → levelInvalid level = false →
      m.read (tblAddr version (rowIndex level) 0#2) =
        s.table.read (tblAddr version (rowIndex level) 0#2))
    (h : accept c s = .next t) : accept c { s with table := m } = .next { t with table := m } := by
  cases hd : decode c with
  | illegal w =>
    rw [accept, hd] at h ⊢
    cases h
    rfl
  | instr i =>
    rw [accept_of_decode hd] at h ⊢
    cases i with
    | fmt data => cases h; rfl
    | ver data => cases h; rfl
    | unpack version level =>
      rcases execUnpack_cases version level s with ⟨hl, ha⟩ | ⟨hl, hp, ha⟩ | ⟨hl, hp, ha⟩ <;>
        cases ha.symm.trans h
      · exact execUnpack_of_invalid hl version { s with table := m }
      · exact execUnpack_of_absent (s := { s with table := m }) hl (hread _ _ hd hl ▸ hp)
      · rw [← hread _ _ hd hl] at hp ⊢
        exact execUnpack_of_present (s := { s with table := m }) hl hp

/-- `ADVANCE` uses the table at the next word of its entry alone (40_block_unpack.md R95, R100). -/
theorem State.advance_of_table_agrees {s : State} {m : Memory}
    (hread : s.lastf = false → m.read (tblAddr s.ver s.lvl (s.tidx + 1#2)) =
      s.table.read (tblAddr s.ver s.lvl (s.tidx + 1#2))) :
    State.advance { s with table := m } = { s.advance with table := m } := by
  obtain hl | hl := Bool.eq_false_or_eq_true s.lastf
  · rw [s.advance_last hl]
    exact State.advance_last { s with table := m } hl
  · rw [s.advance_next hl, ← hread hl]
    exact State.advance_next { s with table := m } hl

end Sys2Proof.Machine
end

section
/-! The obligations of 40_block_unpack.md. -/

namespace Sys2Proof.Machine

/-- Settles O52: by the cases of a step, each moving words within the account. -/
theorem stepsImplementTheResponses : Obligations.StepsImplementTheResponses :=
  fun _ _ h => step_keeps_account h.fourthIsLast

/-- Settles O53: the run from the accepting state keeps the account, and the words offered after the
accepted one are in it at both ends. -/
theorem eachCommandSendsItsResponse : Obligations.EachCommandSendsItsResponse := by
  intro s t u c k ha hr hstep hrun hidle hoff
  have hrun' : runSteps (k + 1) s = .next u := (runSteps_succ hstep k).trans hrun
  obtain ⟨hcfg, htable⟩ := runSteps_keeps_parameters hrun'
  obtain ⟨-, -, hoffered, -⟩ := accept_frame ((step_of_accepts (step_cases hstep).1 ha).symm.trans hstep)
  have haccount : u.sent ++ responses s.cfg s.table s.offered.tail =
      s.sent ++ response s.cfg s.table c ++ responses s.cfg s.table s.offered.tail :=
    calc u.sent ++ responses s.cfg s.table s.offered.tail
        = u.account := by rw [State.account_of_idle hidle, hcfg, htable, hoff, hoffered]; rfl
      _ = s.account := runSteps_keeps_account (State.fourthIsLast_of_idle ha.idle) hr hrun'
      _ = _ := by
        rw [State.account_of_idle ha.idle, ha.offered_eq]
        simp [responses]
  exact List.append_cancel_right haccount

/-- Settles O26: each operation of a step uses the table at `tableReadAt` alone, which is the first word of
the entry of a validly levelled `UNPACK` when a word is accepted. -/
theorem stepReadsOneTableWord : Obligations.StepReadsOneTableWord := by
  refine ⟨fun s m hread t hstep => ?_, fun s c ha a => ?_⟩
  · obtain ⟨hc, ⟨hr, rfl⟩ | ⟨hr, rfl, hw⟩ | ⟨hr, hs, ho, c, rest, hq, hacc⟩ | ⟨hr, hs, hk, rfl⟩ |
      ⟨hr, hs, hz, rfl⟩ | ⟨hr, hs, hz, hk, rfl⟩⟩ := step_cases hstep
    · exact step_of_reset (s := { s with table := m }) hc hr
    · exact step_of_waits (s := { s with table := m }) hc hr hw
    · have ha : s.Accepts c := ⟨hs, hr, ho, by simp [hq]⟩
      have ha' : State.Accepts { s with table := m } c := ⟨hs, hr, ho, by simp [hq]⟩
      rw [step_of_accepts (s := { s with table := m }) hc ha']
      refine accept_of_table_agrees (s := s.tick.takeCommand) (fun version level hd hl => ?_) hacc
      exact hread _ ((ha.tableReadAt_eq_some_iff _).2 ⟨version, level, hd, hl, rfl⟩)
    · exact step_of_deliver (s := { s with table := m }) hc hr hs hk
    · rw [step_of_advance (s := { s with table := m }) hc hr hs hz]
      refine congrArg _ (State.advance_of_table_agrees (s := s.tick) fun hl => hread _ ?_)
      rw [State.tableReadAt_of_not_idle hr (by simp [hs]), State.advanceAddr]
      exact if_pos ⟨hs, hz, hl⟩
    · exact step_of_emit (s := { s with table := m }) hc hr hs hz hk
  · rw [ha.tableReadAt_eq_some_iff]
    refine exists_congr fun version => exists_congr fun level => and_congr_right fun _ => ?_
    rw [levelInvalid_eq_false_iff]
    refine and_congr_right fun hl => ?_
    rw [← tblAddr_rowIndex_zero_toNat hl, BitVec.toNat_inj, eq_comm]

/-- Settles O28: the three cases of `execUnpack`, with the words and fields as numbers. -/
theorem unpackAccept : Obligations.UnpackAccept := by
  intro s version level w
  have hread (hl : level.toNat < 4) :
      s.table.read (tblAddr version (rowIndex level) 0#2) = w :=
    congrArg s.table.read (BitVec.toNat_eq_nat.1 (tblAddr_rowIndex_zero_toNat hl version)).2
  refine ⟨fun hl => ?_, fun hl hw => ?_, fun hmax hl hw => ?_⟩
  · rw [← errWord_unknownErrorLevel_eq_ofNat]
    exact execUnpack_of_invalid ((levelInvalid_eq_true_iff level).2 hl) version s
  · have hp : presentMark w = false := (presentMark_eq_false_iff w).2 hw
    rw [← errWord_unknownVersion_eq_ofNat]
    exact execUnpack_of_absent ((levelInvalid_eq_false_iff level).2 hl) (hread hl ▸ hp)
  · have hp : presentMark w = true := (presentMark_eq_true_iff w).2 (by omega)
    have hlast : lastFlag s.cfg.maxTriples w 0#2 = decide (w.toNat / 2 ^ 30 % 2 = 1) := by
      simp [hmax, lastFlag_four_eq_decide]
    calc exec (.unpack version level) s
        = .next ((s.startSeq version (rowIndex level)).load w 0#2) := by
          rw [← hread hl] at hp ⊢
          exact execUnpack_of_present ((levelInvalid_eq_false_iff level).2 hl) hp
      _ = _ := by rw [State.load_eq_ofNat, State.startSeq_cfg, hlast, rowIndex_eq_ofNat]; rfl

/-- Settles O32: the step is `ADVANCE`, with the next word's address and fields as numbers. -/
theorem advanceStep : Obligations.AdvanceStep := by
  intro s hc hr hs hz
  rw [step_of_advance hc hr hs hz]
  refine ⟨fun hl => ?_, fun hl htidx => ?_⟩
  · rw [State.advance_last s.tick hl]
    rfl
  · intro w
    have hnext : s.tidx + 1#2 = BitVec.ofNat 2 (s.tidx.toNat + 1) := by bv_omega
    have hread : s.table.read (tblAddr s.ver s.lvl (s.tidx + 1#2)) = w := by
      rw [hnext, tblAddr_ofNat s.ver s.lvl (by omega)]; rfl
    have hlast : lastFlag s.cfg.maxTriples w (s.tidx + 1#2) =
        decide (w.toNat / 2 ^ 30 % 2 = 1 ∨ s.tidx.toNat = 2) := by
      simp [wf_maxTriples hc, lastFlag_four_eq_decide, tidx_succ_toNat (by bv_omega : s.tidx ≠ 3#2)]
    calc Host.Outcome.next s.tick.advance
        = .next (s.tick.load (s.table.read (tblAddr s.ver s.lvl (s.tidx + 1#2))) (s.tidx + 1#2)) :=
          congrArg _ (State.advance_next s.tick hl)
      _ = _ := by rw [hread, State.load_eq_ofNat, State.tick_cfg, hlast, hnext]; rfl

/-- Settles O34: by the repetitions of one triple, and sums over them. -/
theorem expandRepeatsEachTriple : Obligations.ExpandRepeatsEachTriple :=
  ⟨expand_nil, expand_cons, fun ts =>
    ⟨length_expand ts, sum_map_expand (fun e => e.1.toNat) ts, sum_map_expand (fun e => e.2.toNat) ts⟩⟩

/-- Settles O35: the three cases of the response, with its words as numbers. -/
theorem unpackRespondsWithTheExpansion : Obligations.UnpackRespondsWithTheExpansion := by
  intro c m version level
  have hresponse := response_of_unpack (decode_encode (.unpack version level)) c m
  have hend : endWord = 0x80000000#32 := rfl
  refine ⟨fun hl => ?_, fun hl he => ?_, fun triples hl he => ?_, fun he => ?_⟩
  · rw [hresponse, unpackResponse_of_invalid ((levelInvalid_eq_true_iff level).2 hl),
      errWord_unknownErrorLevel_eq_ofNat]
  · rw [hresponse, unpackResponse_of_absent ((levelInvalid_eq_false_iff level).2 hl) he,
      errWord_unknownVersion_eq_ofNat]
  · rw [hresponse, unpackResponse_of_entry ((levelInvalid_eq_false_iff level).2 hl) he, hend, descWords]
    exact ⟨by simp only [descWord_eq_ofNat], fun hrc => by rw [expand_of_rc_zero hrc]; rfl⟩
  · have hd : decode 0x0205#16 = .instr (.unpack 5#8 2#3) := by decide
    rw [response_of_unpack hd, unpackResponse_of_entry (level := 2#3) (by decide) he]
    rfl

/-- Settles O36: of the steps that stay in `SEQ` only `ADVANCE` writes `tidx`, and it does so before the
fourth triple. -/
theorem tripleIndexOnlyGrows : Obligations.TripleIndexOnlyGrows := by
  intro s t h hstep hs ht
  obtain ⟨-, ⟨-, rfl⟩ | ⟨-, rfl, -⟩ | ⟨-, hidle, -⟩ | ⟨-, hone, -⟩ | ⟨-, -, hz, rfl⟩ |
    ⟨-, -, -, -, rfl⟩⟩ := step_cases hstep
  · cases ht
  · exact .inl ⟨rfl, rfl, rfl⟩
  · cases hs.symm.trans hidle
  · cases hs.symm.trans hone
  · cases hl : s.lastf with
    | true => rw [State.advance_last s.tick hl] at ht; cases ht
    | false =>
      have hidx : s.tidx ≠ 3#2 := fun hi => by simp [h.fourthIsLast hs hi] at hl
      rw [State.advance_next s.tick hl]
      exact .inr ⟨tidx_succ_toNat hidx, rfl, hz, rfl, rfl⟩
  · exact .inl ⟨rfl, rfl, rfl⟩

/-- Settles O45: by the two outcomes of `exec`. -/
theorem acceptFrame : Obligations.AcceptFrame := by
  intro i s t h
  rcases exec_cases i s with ⟨w, he⟩ | ⟨version, level, hi, he⟩ <;> cases he.symm.trans h
  · exact ⟨rfl, rfl, fun _ => rfl, rfl, rfl, rfl, rfl,
      .inl ⟨rfl, rfl, rfl, rfl, rfl, rfl, rfl, rfl⟩⟩
  · exact ⟨rfl, rfl, fun _ => rfl, rfl, rfl, rfl, rfl, .inr ⟨rfl, rfl, version, level, hi⟩⟩

/-- Settles O47: by what the word decodes to; the bound is the one of `UNPACK`. -/
theorem responseLengthBound : Obligations.ResponseLengthBound := by
  intro c m word
  cases hd : decode word with
  | illegal w => simp [response_of_illegal hd]
  | instr i =>
    cases i with
    | fmt data => simp [response_of_fmt hd]
    | ver data => simp [response_of_ver hd]
    | unpack version level =>
      rw [response_of_unpack hd]
      exact length_unpackResponse c m version level

/-- Settles O31: the step is `EMIT`, whose subtraction does not wrap. -/
theorem emitStep : Obligations.EmitStep := by
  intro s hc hr hs hz hk
  have hrep : s.rep - 1#8 = BitVec.ofNat 8 (s.rep.toNat - 1) := by bv_omega
  rw [step_of_emit hc hr hs hz hk, ← hrep, ← descWord_eq_ofNat]
  rfl

end Sys2Proof.Machine
end

section
/-! SUPPORT. The division of 41_bch.md R121 over GF(2): the multiples of the generator, the loop pass by
pass, the remainder as the one short representative of its class, and the linearity this gives. -/

namespace Sys2Proof.Machine

/-! ### Bit-lengths -/

theorem bitlen_pos {g : Nat} (hg : g ≠ 0) : 0 < bitlen g :=
  Nat.pos_of_ne_zero (mt bitlen_eq_zero.1 hg)

theorem ne_zero_of_bitlen_eq_succ {g n : Nat} (h : bitlen g = n + 1) : g ≠ 0 := by
  rintro rfl
  cases h

/-- A shorter number does not change the highest bit. -/
theorem bitlen_xor_of_lt {a b : Nat} (h : bitlen b < bitlen a) : bitlen (a ^^^ b) = bitlen a := by
  obtain ⟨n, hn⟩ : ∃ n, bitlen a = n + 1 := Nat.exists_eq_succ_of_ne_zero (by omega)
  have htop : (a ^^^ b).testBit n = true := by
    simp [testBit_of_bitlen hn, testBit_of_bitlen_le (v := b) (i := n) (by omega)]
  rw [hn, bitlen_eq_succ_iff]
  exact ⟨Nat.ge_two_pow_of_testBit htop,
    Nat.xor_lt_two_pow (bitlen_le_iff.1 hn.le) (bitlen_le_iff.1 (by omega))⟩

theorem bitlen_xor_lt_of_lt {a b n : Nat} (ha : bitlen a < n) (hb : bitlen b < n) :
    bitlen (a ^^^ b) < n := by
  have hle : bitlen (a ^^^ b) ≤ n - 1 :=
    bitlen_le_iff.2 (Nat.xor_lt_two_pow (bitlen_le_iff.1 (by omega)) (bitlen_le_iff.1 (by omega)))
  omega

/-! ### Multiples of the generator -/

theorem isMultiple_zero (g : Nat) : IsMultiple g 0 := ⟨[], rfl⟩

/-- Adding one more shift of the generator to a multiple. -/
theorem IsMultiple.shiftLeft_xor {g x : Nat} (h : IsMultiple g x) (k : Nat) :
    IsMultiple g (g <<< k ^^^ x) := by
  obtain ⟨ks, rfl⟩ := h
  exact ⟨k :: ks, rfl⟩

/-- What holds of 0 and survives XOR with a shift of the generator holds of every multiple. -/
theorem IsMultiple.induction {g : Nat} {P : ∀ x, IsMultiple g x → Prop}
    (zero : P 0 (isMultiple_zero g))
    (shift : ∀ k y (hy : IsMultiple g y), P y hy → P (g <<< k ^^^ y) (hy.shiftLeft_xor k))
    {x : Nat} (h : IsMultiple g x) : P x h := by
  obtain ⟨ks, rfl⟩ := h
  induction ks with
  | nil => exact zero
  | cons k ks ih => exact shift k _ ⟨ks, rfl⟩ ih

theorem IsMultiple.xor {g x y : Nat} (hx : IsMultiple g x) (hy : IsMultiple g y) :
    IsMultiple g (x ^^^ y) := by
  induction hx using IsMultiple.induction with
  | zero => simpa using hy
  | shift k z _ ih => simpa only [Nat.xor_assoc] using ih.shiftLeft_xor k

/-! ### The loop, pass by pass -/

theorem bchLoop_pass {g r : Nat} (h : bitlen g ≤ bitlen r) (n : Nat) :
    bchLoop g (n + 1) r = bchLoop g n (r ^^^ (g <<< (bitlen r - bitlen g))) := by
  simp [bchLoop, h]

/-- Any two numbers of passes that are both enough give the same (41_bch.md R122). -/
theorem bchLoop_eq_bchLoop {g : Nat} (hg : g ≠ 0) {n m r : Nat} (hn : bitlen r < bitlen g + n)
    (hm : bitlen r < bitlen g + m) : bchLoop g n r = bchLoop g m r := by
  induction n generalizing m r with
  | zero => rw [bchLoop_short hn, bchLoop_short hn]
  | succ n ih =>
    by_cases hshort : bitlen r < bitlen g
    · rw [bchLoop_short hshort, bchLoop_short hshort]
    · have hle : bitlen g ≤ bitlen r := not_lt.1 hshort
      obtain ⟨m, rfl⟩ : ∃ k, m = k + 1 := Nat.exists_eq_succ_of_ne_zero (by omega)
      have hpass := bitlen_pass_lt hg hle
      rw [bchLoop_pass hle, bchLoop_pass hle]
      exact ih (by omega) (by omega)

/-- `max(0, bitlen(d) - bitlen(G) + 1)` passes are enough (41_bch.md R122). -/
theorem bchLoop_eq_bchRem {g d n : Nat} (hg : g ≠ 0) (hn : bitlen d + 1 - bitlen g ≤ n) :
    bchLoop g n d = bchRem d g := by
  have := bitlen_pos hg
  exact bchLoop_eq_bchLoop hg (by omega) (by omega)

theorem bchRem_of_short {d g : Nat} (h : bitlen d < bitlen g) : bchRem d g = d :=
  bchLoop_short h _

/-- One pass does not change the remainder (41_bch.md R121). -/
theorem bchRem_pass {d g : Nat} (hg : g ≠ 0) (h : bitlen g ≤ bitlen d) :
    bchRem d g = bchRem (d ^^^ (g <<< (bitlen d - bitlen g))) g := by
  have hpass := bitlen_pass_lt hg h
  rw [← bchLoop_eq_bchRem (n := bitlen d + 1) hg (by omega), bchLoop_pass h]
  exact bchLoop_eq_bchRem hg (by omega)

/-- Induction along the passes: dividends shorter than the generator, and one pass. -/
theorem pass_induction {g : Nat} (hg : g ≠ 0) {P : Nat → Prop} (d : Nat)
    (short : ∀ d, bitlen d < bitlen g → P d)
    (pass : ∀ d, bitlen g ≤ bitlen d → P (d ^^^ (g <<< (bitlen d - bitlen g))) → P d) : P d := by
  induction hn : bitlen d using Nat.strong_induction_on generalizing d with
  | _ n ih =>
    subst hn
    by_cases h : bitlen d < bitlen g
    · exact short d h
    · have hle : bitlen g ≤ bitlen d := not_lt.1 h
      exact pass d hle (ih _ (bitlen_pass_lt hg hle) _ rfl)

theorem bitlen_bchRem_lt {g : Nat} (hg : g ≠ 0) (d : Nat) : bitlen (bchRem d g) < bitlen g := by
  induction d using pass_induction hg with
  | short d h => rwa [bchRem_of_short h]
  | pass d h ih => rwa [bchRem_pass hg h]

theorem bchRem_lt_two_pow {g : Nat} (hg : g ≠ 0) (d : Nat) : bchRem d g < 2 ^ (bitlen g - 1) := by
  have := bitlen_bchRem_lt hg d
  exact bitlen_le_iff.1 (by omega)

theorem bchRem_lt_of_bitlen {g s : Nat} (hg : bitlen g = s + 1) (d : Nat) : bchRem d g < 2 ^ s := by
  simpa [hg] using bchRem_lt_two_pow (ne_zero_of_bitlen_eq_succ hg) d

/-- The dividend and its remainder differ by the shifts of the passes made. -/
theorem isMultiple_xor_bchRem {g : Nat} (hg : g ≠ 0) (d : Nat) : IsMultiple g (d ^^^ bchRem d g) := by
  induction d using pass_induction hg with
  | short d h => simpa [bchRem_of_short h] using isMultiple_zero g
  | pass d h ih =>
    rw [bchRem_pass hg h]
    convert ih.shiftLeft_xor (bitlen d - bitlen g) using 1
    rw [← Nat.xor_assoc, Nat.xor_comm (g <<< _) (d ^^^ _), Nat.xor_xor_cancel_right]

/-! ### The remainder is unique -/

/-- The remainder does not see a shift of the generator: where that is longer than the dividend one pass
takes it away again, where both are as long it is the dividend's own pass, and where it is shorter
both sides make the same pass. -/
theorem bchRem_xor_shiftLeft {g : Nat} (hg : g ≠ 0) (d k : Nat) :
    bchRem (d ^^^ g <<< k) g = bchRem d g := by
  have hk := bitlen_shiftLeft hg k
  have longer {d : Nat} (h : bitlen d < bitlen g + k) : bchRem (d ^^^ g <<< k) g = bchRem d g := by
    have hlen : bitlen (d ^^^ g <<< k) = bitlen g + k := by
      rw [Nat.xor_comm, bitlen_xor_of_lt (hk ▸ h), hk]
    rw [bchRem_pass hg (by omega), hlen, Nat.add_sub_cancel_left, Nat.xor_xor_cancel_right]
  induction d using pass_induction hg with
  | short d h => exact longer (by omega)
  | pass d h ih =>
    rcases lt_trichotomy (bitlen d) (bitlen g + k) with hlt | heq | hgt
    · exact longer hlt
    · rw [bchRem_pass hg h, heq, Nat.add_sub_cancel_left]
    · have hlen : bitlen (d ^^^ g <<< k) = bitlen d := bitlen_xor_of_lt (hk ▸ hgt)
      rw [bchRem_pass hg h, ← ih, bchRem_pass hg (hlen ▸ h), hlen, Nat.xor_right_comm]

theorem bchRem_xor_of_isMultiple {g x : Nat} (hg : g ≠ 0) (h : IsMultiple g x) (d : Nat) :
    bchRem (d ^^^ x) g = bchRem d g := by
  induction h using IsMultiple.induction with
  | zero => rw [Nat.xor_zero]
  | shift k y _ ih =>
    rw [Nat.xor_comm (g <<< k), ← Nat.xor_assoc, bchRem_xor_shiftLeft hg, ih]

/-- The remainder is the only number shorter than the generator that differs from the dividend by a
multiple (41_bch.md R121). -/
theorem eq_bchRem_of_isMultiple {g d r : Nat} (hg : g ≠ 0) (hr : bitlen r < bitlen g)
    (h : IsMultiple g (d ^^^ r)) : r = bchRem d g :=
  calc r = bchRem r g := (bchRem_of_short hr).symm
    _ = bchRem (d ^^^ (d ^^^ r)) g := by rw [Nat.xor_xor_cancel_left]
    _ = bchRem d g := bchRem_xor_of_isMultiple hg h d

/-- The remainder is linear: the XOR of two remainders is short and in the class of the XOR
(41_bch.md R129 (a)). -/
theorem bchRem_xor {g : Nat} (hg : g ≠ 0) (a b : Nat) :
    bchRem (a ^^^ b) g = bchRem a g ^^^ bchRem b g := by
  have hshort := bitlen_xor_lt_of_lt (bitlen_bchRem_lt hg a) (bitlen_bchRem_lt hg b)
  have hmult := (isMultiple_xor_bchRem hg a).xor (isMultiple_xor_bchRem hg b)
  refine (eq_bchRem_of_isMultiple hg hshort ?_).symm
  simpa only [Nat.xor_assoc, Nat.xor_left_comm, Nat.xor_comm] using hmult

end Sys2Proof.Machine
end

section
/-! SUPPORT. `bch_encode` (41_bch.md R123): the datum and its remainder side by side, the width, the
linearity, and the values of `FMT` and `VER`. -/

namespace Sys2Proof.Machine

/-! ### Disjoint bits -/

/-- A shifted number and one below the shift share no bit, so OR is XOR. -/
theorem shiftLeft_or_eq_xor {s r : Nat} (h : r < 2 ^ s) (a : Nat) : a <<< s ||| r = a <<< s ^^^ r := by
  refine Nat.eq_of_testBit_eq fun i => ?_
  by_cases hi : i < s
  · simp [Nat.testBit_shiftLeft, not_le.2 hi]
  · simp [Nat.testBit_lt_two_pow (h.trans_le (Nat.pow_le_pow_right two_pos (not_lt.1 hi)))]

theorem shiftLeft_or_shiftRight {s r : Nat} (h : r < 2 ^ s) (a : Nat) : (a <<< s ||| r) >>> s = a := by
  rw [Nat.shiftRight_or_distrib, Nat.shiftLeft_shiftRight, Nat.shiftRight_eq_zero r s h, Nat.or_zero]

/-- A datum of `w` bits needs at most `w` passes (41_bch.md R122). -/
theorem bchLoop_eq_bchRem_of_datum {g data w s : Nat} (hg : bitlen g = s + 1) (hdata : data < 2 ^ w) :
    bchLoop g w (data <<< s) = bchRem (data <<< s) g := by
  have hlen : bitlen (data <<< s) ≤ w + s := bitlen_le_iff.2 (Nat.shiftLeft_lt hdata)
  exact bchLoop_eq_bchRem (ne_zero_of_bitlen_eq_succ hg) (by omega)

/-! ### The encoder -/

theorem bchEncode_eq_xor_mask (data g mask : Nat) :
    bchEncode data g mask = bchEncode data g 0 ^^^ mask := by
  simp [bchEncode]

/-- The unmasked result is the XOR of the shifted datum and its remainder (41_bch.md R128). -/
theorem bchEncode_eq_xor {g : Nat} (hg : g ≠ 0) (data : Nat) :
    bchEncode data g 0 = data <<< (bitlen g - 1) ^^^ bchRem (data <<< (bitlen g - 1)) g := by
  rw [bchEncode, Nat.xor_zero, shiftLeft_or_eq_xor (bchRem_lt_two_pow hg _)]

/-- The code is systematic (41_bch.md R128). -/
theorem bchEncode_shiftRight {g : Nat} (hg : g ≠ 0) (data : Nat) :
    bchEncode data g 0 >>> (bitlen g - 1) = data := by
  rw [bchEncode, Nat.xor_zero, shiftLeft_or_shiftRight (bchRem_lt_two_pow hg _)]

theorem bchEncode_isMultiple {g : Nat} (hg : g ≠ 0) (data : Nat) :
    IsMultiple g (bchEncode data g 0) :=
  bchEncode_eq_xor hg data ▸ isMultiple_xor_bchRem hg _

theorem bchEncode_xor {g : Nat} (hg : g ≠ 0) (a b : Nat) :
    bchEncode (a ^^^ b) g 0 = bchEncode a g 0 ^^^ bchEncode b g 0 := by
  simp only [bchEncode_eq_xor hg, Nat.shiftLeft_xor_distrib, bchRem_xor hg]
  simp only [Nat.xor_assoc, Nat.xor_left_comm]

/-- The code is injective, masked or not: the datum is its upper part (41_bch.md R129 (b)). -/
theorem bchEncode_injective {g : Nat} (hg : g ≠ 0) (mask : Nat) {a b : Nat}
    (h : bchEncode a g mask = bchEncode b g mask) : a = b := by
  rw [bchEncode_eq_xor_mask a, bchEncode_eq_xor_mask b, Nat.xor_left_inj] at h
  rw [← bchEncode_shiftRight hg a, h, bchEncode_shiftRight hg b]

/-- A datum of `w` bits and a mask that fits give a result of `w + bitlen(G) - 1` bits. -/
theorem bchEncode_lt_two_pow {g data mask w s : Nat} (hg : bitlen g = s + 1) (hdata : data < 2 ^ w)
    (hmask : mask < 2 ^ (w + s)) : bchEncode data g mask < 2 ^ (w + s) := by
  have hrem : bchRem (data <<< s) g < 2 ^ (w + s) :=
    (bchRem_lt_of_bitlen hg _).trans_le (Nat.pow_le_pow_right two_pos (by omega))
  rw [bchEncode, hg, Nat.add_sub_cancel]
  exact Nat.xor_lt_two_pow (Nat.or_lt_two_pow (Nat.shiftLeft_lt hdata) hrem) hmask

/-! ### The constants of a well-formed configuration -/

theorem wf_g15_ne_zero {c : Config} (hc : c.wf = true) : c.g15 ≠ 0 := by
  obtain ⟨h15, -, -, -⟩ := wf_iff.1 hc
  exact ne_zero_of_bitlen_eq_succ h15

theorem wf_g18_ne_zero {c : Config} (hc : c.wf = true) : c.g18 ≠ 0 := by
  obtain ⟨-, h18, -, -⟩ := wf_iff.1 hc
  exact ne_zero_of_bitlen_eq_succ h18

/-! ### The values of `FMT` and `VER` -/

theorem valueWord_ofNat {v : Nat} (h : v < 2 ^ 18) :
    valueWord (BitVec.ofNat 18 v) = BitVec.ofNat 32 v := by
  apply BitVec.eq_of_toNat_eq
  rw [valueWord_toNat, BitVec.toNat_ofNat, BitVec.toNat_ofNat]
  omega

theorem fmtCode_lt {c : Config} (hc : c.wf = true) (data : BitVec 5) :
    bchEncode data.toNat c.g15 c.fmtMask < 2 ^ 15 := by
  obtain ⟨h15, -, hmask, -⟩ := wf_iff.1 hc
  exact bchEncode_lt_two_pow h15 data.isLt hmask

theorem verCode_lt {c : Config} (hc : c.wf = true) (data : BitVec 6) :
    bchEncode data.toNat c.g18 0 < 2 ^ 18 := by
  obtain ⟨-, h18, -, -⟩ := wf_iff.1 hc
  exact bchEncode_lt_two_pow h18 data.isLt (Nat.two_pow_pos _)

theorem bchEncode_zero (g : Nat) : bchEncode 0 g 0 = 0 := by
  simp [bchEncode, bchRem, bchLoop]

/-- A field tells the values that fit in it apart. -/
theorem eq_of_ofNat_eq {v u n : Nat} (hv : v < 2 ^ n) (hu : u < 2 ^ n)
    (h : BitVec.ofNat n v = BitVec.ofNat n u) : v = u := by
  simpa [Nat.mod_eq_of_lt hv, Nat.mod_eq_of_lt hu] using congrArg BitVec.toNat h

/-- The mask is XORed in last (41_bch.md R123). -/
theorem fmtValue_eq_xor_mask (c : Config) (data : BitVec 5) :
    fmtValue c data = BitVec.ofNat 18 (bchEncode data.toNat c.g15 0) ^^^ BitVec.ofNat 18 c.fmtMask := by
  rw [fmtValue, bchEncode_eq_xor_mask, BitVec.ofNat_xor]

/-- The all-zero datum gives the bare mask (41_bch.md R126). -/
theorem fmtValue_zero (c : Config) : fmtValue c 0#5 = BitVec.ofNat 18 c.fmtMask := by
  simp [fmtValue_eq_xor_mask, bchEncode_zero]

/-- Masked words are linear up to the mask, which three of them carry thrice (41_bch.md R129 (a)). -/
theorem fmtValue_xor {c : Config} (hc : c.wf = true) (a b : BitVec 5) :
    fmtValue c a ^^^ fmtValue c b ^^^ fmtValue c 0#5 = fmtValue c (a ^^^ b) := by
  rw [fmtValue_zero, fmtValue_eq_xor_mask c b, BitVec.xor_assoc, xor_cancel_right,
    fmtValue_eq_xor_mask c a, fmtValue_eq_xor_mask c (a ^^^ b), BitVec.toNat_xor,
    bchEncode_xor (wf_g15_ne_zero hc), BitVec.ofNat_xor, BitVec.xor_assoc, BitVec.xor_assoc,
    BitVec.xor_comm (BitVec.ofNat 18 c.fmtMask)]

theorem verValue_xor {c : Config} (hc : c.wf = true) (a b : BitVec 6) :
    verValue c a ^^^ verValue c b = verValue c (a ^^^ b) := by
  rw [verValue, verValue, ← BitVec.ofNat_xor, ← bchEncode_xor (wf_g18_ne_zero hc),
    ← BitVec.toNat_xor, ← verValue]

theorem fmtValue_injective {c : Config} (hc : c.wf = true) {a b : BitVec 5}
    (h : fmtValue c a = fmtValue c b) : a = b := by
  have ha := fmtCode_lt hc a
  have hb := fmtCode_lt hc b
  have hcode := eq_of_ofNat_eq (n := 18) (by omega) (by omega) h
  exact BitVec.eq_of_toNat_eq (bchEncode_injective (wf_g15_ne_zero hc) _ hcode)

theorem verValue_injective {c : Config} (hc : c.wf = true) {a b : BitVec 6}
    (h : verValue c a = verValue c b) : a = b := by
  have hcode := eq_of_ofNat_eq (verCode_lt hc a) (verCode_lt hc b) h
  exact BitVec.eq_of_toNat_eq (bchEncode_injective (wf_g18_ne_zero hc) _ hcode)

/-! ### Distances -/

/-- The distance of two code words is the weight of the code word of the XOR of their data. -/
theorem bitDistance_bchEncode {g : Nat} (hg : g ≠ 0) (n a b : Nat) :
    bitDistance n (bchEncode a g 0) (bchEncode b g 0) = bitDistance n (bchEncode (a ^^^ b) g 0) 0 := by
  rw [bitDistance, bitDistance, bchEncode_xor hg, Nat.xor_zero]

end Sys2Proof.Machine
end

section
/-! The obligations of 41_bch.md. -/

namespace Sys2Proof.Machine

/-- Settles O40: one pass, the class of the passes made, and the short representative of a class. -/
theorem bchRemIsTheRemainder : Obligations.BchRemIsTheRemainder := by
  intro d g hg
  refine ⟨?_, bitlen_bchRem_lt hg d, isMultiple_xor_bchRem hg d,
    fun r hr h => eq_bchRem_of_isMultiple hg hr h⟩
  split_ifs with hle
  · exact bchRem_pass hg hle
  · exact bchRem_of_short (not_le.1 hle)

/-- Settles O41: passes beyond the bound change nothing, and a datum of `w` bits needs at most `w`. -/
theorem bchLoopTerminates : Obligations.BchLoopTerminates := by
  refine ⟨fun d g n hg hn => bchLoop_eq_bchRem hg hn, fun d g hg => bchRem_lt_two_pow hg d,
    fun d g h => bchRem_of_short h, fun c hc => ?_, by decide, by decide⟩
  obtain ⟨h15, h18, -, -⟩ := wf_iff.1 hc
  exact ⟨fun data => ⟨bchLoop_eq_bchRem_of_datum h15 data.isLt, bchRem_lt_of_bitlen h15 _⟩,
    fun data => ⟨bchLoop_eq_bchRem_of_datum h18 data.isLt, bchRem_lt_of_bitlen h18 _⟩⟩

/-- Settles O42: the remainder lies below the shifted datum, and the remainder of their XOR is 0. -/
theorem bchCodeIsSystematic : Obligations.BchCodeIsSystematic := by
  intro data g hg s d r
  have hr : r < 2 ^ s := bchRem_lt_two_pow hg d
  have hxor : d ||| r = d ^^^ r := shiftLeft_or_eq_xor hr data
  refine ⟨hxor, (Nat.shiftLeft_add_eq_or_of_lt hr data).symm, ?_, bchEncode_isMultiple hg data,
    bchEncode_shiftRight hg data⟩
  calc bchRem (d ||| r) g
      = bchRem d g ^^^ bchRem r g := by rw [hxor, bchRem_xor hg]
    _ = r ^^^ r := by rw [bchRem_of_short (d := r) (bitlen_bchRem_lt hg d)]
    _ = 0 := Nat.xor_self r

/-- Settles O43: the remainder is linear and the datum is the upper part of the result. -/
theorem bchCodeIsLinear : Obligations.BchCodeIsLinear :=
  ⟨fun a b _ hg => ⟨bchRem_xor hg a b, bchEncode_xor hg a b⟩, fun _ hc =>
    ⟨fmtValue_xor hc, verValue_xor hc, fun _ _ => fmtValue_injective hc,
      fun _ _ => verValue_injective hc⟩⟩

/-- Settles O44: by linearity the distance of two words is the weight of the word of the XOR of their
data, so the words of the nonzero data are enough. -/
theorem decidedCodeDistances : Obligations.DecidedCodeDistances := by
  have hfmt : ∀ x : BitVec 5, x ≠ 0#5 → 7 ≤ bitDistance 15 (bchEncode x.toNat 0x537 0) 0 := by decide
  have hver : ∀ x : BitVec 6, x ≠ 0#6 → 8 ≤ bitDistance 18 (bchEncode x.toNat 0x1F25 0) 0 := by decide
  refine ⟨fun a b hab => ?_, fun a b hab => ?_⟩
  · rw [bitDistance_bchEncode (by decide), ← BitVec.toNat_xor]
    exact hfmt _ (mt BitVec.xor_eq_zero_iff.1 hab)
  · rw [bitDistance_bchEncode (by decide), ← BitVec.toNat_xor]
    exact hver _ (mt BitVec.xor_eq_zero_iff.1 hab)

/-- Settles O37: `execFmt` answers with the value, whose width is that of the datum and the mask. -/
theorem fmtAccept : Obligations.FmtAccept := by
  refine ⟨?_, by decide⟩
  intro s data hc d v
  obtain ⟨h15, -, -, -⟩ := wf_iff.1 hc
  have hv : bchEncode data.toNat s.cfg.g15 s.cfg.fmtMask = v := by rw [bchEncode, h15]
  have hlt : v < 2 ^ 15 := hv ▸ fmtCode_lt hc data
  have hword : valueWord (fmtValue s.cfg data) = BitVec.ofNat 32 v := by
    rw [fmtValue, hv, valueWord_ofNat (by omega)]
  refine ⟨hlt, encode_fmt_toNat data, ?_, ?_⟩
  · rw [← hword]; rfl
  · rw [response_of_fmt (decode_encode (.fmt data)), hword]

/-- Settles O38: `execVer` answers with the unmasked value, whose width is that of the datum. -/
theorem verAccept : Obligations.VerAccept := by
  refine ⟨?_, by decide⟩
  intro s data hc d v
  obtain ⟨-, h18, -, -⟩ := wf_iff.1 hc
  have hv : bchEncode data.toNat s.cfg.g18 0 = v := by rw [bchEncode, h18, Nat.xor_zero]
  have hlt : v < 2 ^ 18 := hv ▸ verCode_lt hc data
  have hword : valueWord (verValue s.cfg data) = BitVec.ofNat 32 v := by
    rw [verValue, hv, valueWord_ofNat hlt]
  refine ⟨hlt, encode_ver_toNat data, ?_, ?_⟩
  · rw [← hword]; rfl
  · rw [response_of_ver (decode_encode (.ver data)), hword]

end Sys2Proof.Machine
end

section
/-! SUPPORT. The `ERR` words of a response (60_exceptions.md R151), when `UNPACK` answers `UnknownVersion`
(R155), and what `ADVANCE` leaves in `rw` (R158). -/

namespace Sys2Proof.Machine

/-! ### The `ERR` words of a response -/

/-- An `ERR` word determines its code and the value it carries (30_encoding.md R72). -/
theorem errWord_inj {k k' : BitVec 3} {info info' : BitVec 16} :
    errWord k info = errWord k' info' ↔ k = k' ∧ info = info' := by
  simp only [← BitVec.toNat_inj, errWord_toNat]
  omega

/-- A sequence of descriptors and `END` holds no `ERR` word (40_block_unpack.md R91). -/
theorem errWord_notMem_descWords_endWord (k : BitVec 3) (info : BitVec 16) (triples : List Triple) :
    errWord k info ∉ descWords triples ++ [endWord] := by
  intro h
  rcases List.mem_append.1 h with hdesc | hend
  · simpa using rspKind_of_mem_descWords hdesc
  · simpa using congrArg rspKind (List.mem_singleton.1 hend)

/-- An illegal word is reported whole (30_encoding.md R77). -/
theorem eq_of_decode_illegal {c w : CmdWord} (h : decode c = .illegal w) : w = c := by
  unfold decode at h
  split_ifs at h
  cases h
  rfl

/-- An `ERR` word of `UNPACK` is the answer to an invalid level, or to a valid one without an entry
(40_block_unpack.md R91). -/
theorem errWord_mem_unpackResponse {c : Config} {m : Memory} {version : BitVec 8} {level : BitVec 3}
    {k : BitVec 3} {info : BitVec 16} (h : errWord k info ∈ unpackResponse c m version level) :
    (levelInvalid level = true ∧ k = errorCode .unknownErrorLevel ∧ info = level.setWidth 16) ∨
    (levelInvalid level = false ∧ entry c m version (rowIndex level) = none ∧
      k = errorCode .unknownVersion ∧ info = version.setWidth 16) := by
  cases hl : levelInvalid level with
  | true =>
    rw [unpackResponse_of_invalid hl, List.mem_singleton, errWord_inj] at h
    exact .inl ⟨rfl, h⟩
  | false =>
    cases he : entry c m version (rowIndex level) with
    | none =>
      rw [unpackResponse_of_absent hl he, List.mem_singleton, errWord_inj] at h
      exact .inr ⟨rfl, rfl, h⟩
    | some triples =>
      rw [unpackResponse_of_entry hl he] at h
      exact absurd h (errWord_notMem_descWords_endWord k info triples)

/-! ### The first table word of an `UNPACK` -/

/-- An `UNPACK` of a valid level answers `UnknownVersion` exactly when its entry is absent: a present entry
starts the sequence in `SEQ` instead (40_block_unpack.md R92; 60_exceptions.md R155). -/
theorem execUnpack_eq_unknownVersion_iff {level : BitVec 3} (hl : levelInvalid level = false)
    (version : BitVec 8) (s : State) :
    execUnpack version level s =
        .next (s.respond (errWord (errorCode .unknownVersion) (version.setWidth 16))) ↔
      presentMark (s.table.read (tblAddr version (rowIndex level) 0#2)) = false := by
  refine ⟨fun h => ?_, execUnpack_of_absent hl⟩
  cases hp : presentMark (s.table.read (tblAddr version (rowIndex level) 0#2)) with
  | false => rfl
  | true =>
    have hst : Phase.seq = .one :=
      congrArg State.st (Host.Outcome.next.inj ((execUnpack_of_present hl hp).symm.trans h))
    cases hst

/-! ### The response register in `ADVANCE` -/

/-- `ADVANCE` keeps `rw`, or ends the sequence with `END` in it (40_block_unpack.md R95). -/
theorem State.advance_rw_cases (s : State) :
    s.advance.rw = s.rw ∨ (s.advance.st = .one ∧ s.advance.rw = endWord) := by
  cases hl : s.lastf with
  | true => rw [s.advance_last hl]; exact .inr ⟨rfl, rfl⟩
  | false => rw [s.advance_next hl]; exact .inl rfl

end Sys2Proof.Machine
end

section
/-! The obligations of 60_exceptions.md. -/

namespace Sys2Proof.Machine

/-- Settles O30: the `UnknownVersion` answer is that of an absent entry alone, as a number. -/
theorem unpackUnknownVersion : Obligations.UnpackUnknownVersion := by
  intro s version level hl
  rw [← errWord_unknownVersion_eq_ofNat]
  exact (execUnpack_eq_unknownVersion_iff ((levelInvalid_eq_false_iff level).2 hl) version s).symm

/-- Settles O48: by what the word decodes to. A `VALUE` word is of another kind than `ERR`, and the word
of each error determines its code and value. -/
theorem errorsCarryTheOffendingValue : Obligations.ErrorsCarryTheOffendingValue := by
  intro c m word k info h
  cases hd : decode word with
  | illegal w =>
    rw [response_of_illegal hd, List.mem_singleton, errWord_inj] at h
    obtain ⟨rfl, rfl⟩ := h
    cases eq_of_decode_illegal hd
    exact .inr (.inr ⟨rfl, rfl, rfl⟩)
  | instr i =>
    cases i with
    | fmt data =>
      rw [response_of_fmt hd, List.mem_singleton] at h
      simpa using congrArg rspKind h
    | ver data =>
      rw [response_of_ver hd, List.mem_singleton] at h
      simpa using congrArg rspKind h
    | unpack version level =>
      rw [response_of_unpack hd] at h
      rcases errWord_mem_unpackResponse h with ⟨hl, rfl, rfl⟩ | ⟨hl, he, rfl, rfl⟩
      · exact .inl ⟨rfl, version, level, rfl, (levelInvalid_eq_true_iff level).1 hl,
          BitVec.toNat_setWidth_of_le (by decide)⟩
      · exact .inr (.inl ⟨rfl, version, level, rfl, (levelInvalid_eq_false_iff level).1 hl, he,
          BitVec.toNat_setWidth_of_le (by decide)⟩)

/-- Settles O49: of the steps of a command in progress only `ADVANCE` writes `rw`. -/
theorem errorsOnlyAtAcceptance : Obligations.ErrorsOnlyAtAcceptance := by
  intro s t hstep hr hs hrw
  obtain ⟨-, ⟨hreset, -⟩ | ⟨-, rfl, -⟩ | ⟨-, hidle, -⟩ | ⟨-, -, -, rfl⟩ | ⟨-, hseq, -, rfl⟩ |
    ⟨-, -, -, -, rfl⟩⟩ := step_cases hstep
  · cases hr.symm.trans hreset
  · exact absurd rfl hrw
  · exact absurd hidle hs
  · exact absurd rfl hrw
  · obtain ⟨hst, hend⟩ := (State.advance_rw_cases s.tick).resolve_left hrw
    exact ⟨hseq, hst, hend, State.advance_sent s.tick⟩
  · exact absurd rfl hrw

/-- Settles O29: the level is tested before the table is read. -/
theorem unpackUnknownLevel : Obligations.UnpackUnknownLevel := by
  intro s version level m hl
  rw [← errWord_unknownErrorLevel_eq_ofNat]
  exact execUnpack_of_invalid ((levelInvalid_eq_true_iff level).2 hl) version { s with table := m }

end Sys2Proof.Machine
end

section
/-! SUPPORT. What a reset and a stalled consumer leave (70_reset_and_hazards.md R181, R185), and the work
that bounds a run without reset (R189). -/

namespace Sys2Proof.Machine

/-! ### Resets and stalls -/

/-- An idle unit offers no response, whatever the pins (10_state.md R33). -/
theorem State.rspValid_of_idle {s : State} (hs : s.st = .idle) : s.rspValid = false := by
  simp [State.rspValid, hs]

/-- What has been sent is the first part of the account. -/
theorem State.sent_isPrefix_account (s : State) : s.sent <+: s.account :=
  ⟨s.pending ++ responses s.cfg s.table s.offered, (List.append_assoc ..).symm⟩

/-- With a word on offer and a consumer that is not ready, the unit waits. -/
theorem State.waits_of_not_ready {s : State} (hs : s.st = .one ∨ (s.st = .seq ∧ s.rep ≠ 0#8))
    (hr : s.edge.rst = false) (hk : s.edge.rspReady = false) : s.Waits :=
  State.waits_of_rsp_stalled (State.rspValid_eq_true.2 ⟨hs, hr⟩) hk

/-- Past the schedule the requester offers and the consumer is ready (log 9), so that a unit that still
waits has nothing left to do. -/
theorem State.Waits.runEnded {s : State} (hw : s.Waits) (he : s.edges = []) : s.RunEnded := by
  have hedge : s.edge = Edge.ready := by simp [State.edge, he]
  rcases hw with ⟨hs, ho | ho⟩ | ⟨-, hk⟩ | ⟨-, -, hk⟩
  · simp [hedge, Edge.ready] at ho
  · exact ⟨hs, ho⟩
  · simp [hedge, Edge.ready] at hk
  · simp [hedge, Edge.ready] at hk

/-! ### The steps left of a command -/

/-- A bound on the steps the command in progress still takes: `DELIVER` alone in `ONE`; in `SEQ` up to 255
`EMIT` and one `ADVANCE` for each triple after the loaded one, the rest of the loaded one, and `DELIVER`. -/
def State.commandSteps (s : State) : Nat :=
  match s.st with
  | .idle => 0
  | .one => 1
  | .seq => (3 - s.tidx.toNat) * 256 + s.rep.toNat + 2

theorem State.commandSteps_of_idle {s : State} (hs : s.st = .idle) : s.commandSteps = 0 := by
  simp [State.commandSteps, hs]

theorem State.commandSteps_of_one {s : State} (hs : s.st = .one) : s.commandSteps = 1 := by
  simp [State.commandSteps, hs]

theorem State.commandSteps_of_seq {s : State} (hs : s.st = .seq) :
    s.commandSteps = (3 - s.tidx.toNat) * 256 + s.rep.toNat + 2 := by
  simp [State.commandSteps, hs]

/-- Four triples of 255 descriptors and their `ADVANCE`, and `DELIVER` (40_block_unpack.md R102). -/
theorem State.commandSteps_le (s : State) : s.commandSteps ≤ 1025 := by
  cases hs : s.st with
  | idle => rw [State.commandSteps_of_idle hs]; omega
  | one => rw [State.commandSteps_of_one hs]; omega
  | seq => rw [State.commandSteps_of_seq hs]; omega

/-- `EMIT` lowers `rep`, which was not 0 (40_block_unpack.md R94). -/
theorem State.commandSteps_emit {s : State} (hs : s.st = .seq) (hz : s.rep ≠ 0#8) :
    s.emit.commandSteps < s.commandSteps := by
  have hrep : (s.rep - 1#8).toNat < s.rep.toNat := by bv_omega
  rw [State.commandSteps_of_seq hs, State.commandSteps_of_seq (s := s.emit) hs]
  simpa using hrep

/-- `ADVANCE` ends the sequence or raises `tidx`, which does not wrap (40_block_unpack.md R95, R102); the
255 descriptors of the next triple were counted. -/
theorem State.commandSteps_advance {s : State} (hs : s.st = .seq) (hlast : s.FourthIsLast) :
    s.advance.commandSteps < s.commandSteps := by
  rw [State.commandSteps_of_seq hs]
  cases hl : s.lastf with
  | true =>
    rw [s.advance_last hl, State.commandSteps_of_one (State.respond_st _ _)]
    omega
  | false =>
    have hidx : s.tidx ≠ 3#2 := fun ht => by simp [hlast hs ht] at hl
    have hsucc := tidx_succ_toNat hidx
    have hlt : s.tidx.toNat < 3 := by bv_omega
    rw [s.advance_next hl, State.commandSteps_of_seq ((State.load_st _ _ _).trans hs),
      State.load_tidx, State.load_rep, hsucc]
    omega

/-! ### Every run without reset ends -/

/-- A bound on the steps to the end of the run: the edges of the schedule, at which the unit may be kept
waiting, and for each command its acceptance and the steps it takes. -/
def State.stepsLeft (s : State) : Nat :=
  s.edges.length + s.offered.length * 1026 + s.commandSteps

/-- Until the run has ended, every step without reset uses up an edge of the schedule or does a part of the
work. -/
theorem step_lowers_stepsLeft {s t : State} (hlast : s.FourthIsLast) (hr : s.edge.rst = false)
    (hstep : step s = .next t) (hend : ¬ s.RunEnded) : t.stepsLeft < s.stepsLeft := by
  have hedges : t.edges.length ≤ s.edges.length := by simp [step_edges hstep]
  unfold State.stepsLeft
  obtain ⟨-, ⟨hr', -⟩ | ⟨-, rfl, hw⟩ | ⟨-, hs, -, c, rest, ho, ha⟩ | ⟨-, hs, -, rfl⟩ |
    ⟨-, hs, hz, rfl⟩ | ⟨-, hs, hz, -, rfl⟩⟩ := step_cases hstep
  · simp [hr] at hr'
  · have hwait : s.edges ≠ [] := fun he => hend (State.Waits.runEnded hw he)
    have hlen := List.length_pos_iff.2 hwait
    have hsame : s.tick.commandSteps = s.commandSteps := rfl
    simp only [State.tick_edges, State.tick_offered, List.length_tail, hsame]
    omega
  · obtain ⟨-, -, hoffered, -, -⟩ := accept_frame ha
    have hle := t.commandSteps_le
    simp only [hoffered, State.takeCommand_offered, State.tick_offered, ho, List.tail_cons,
      List.length_cons]
    omega
  · rw [State.commandSteps_of_one hs, State.commandSteps_of_idle (State.deliver_st _)]
    simp only [State.deliver_offered, State.tick_offered]
    omega
  · have hlt : s.tick.advance.commandSteps < s.commandSteps :=
      State.commandSteps_advance (s := s.tick) hs hlast
    simp only [State.advance_offered, State.tick_offered]
    omega
  · have hlt : s.tick.emit.commandSteps < s.commandSteps :=
      State.commandSteps_emit (s := s.tick) hs hz
    simp only [State.emit_offered, State.tick_offered]
    omega

/-- Every run without reset ends (70_reset_and_hazards.md R185, R189). -/
theorem exists_runEnded {s : State} (hc : s.cfg.wf = true) (hlast : s.FourthIsLast) (hr : s.NoReset) :
    ∃ k t, runSteps k s = .next t ∧ t.RunEnded := by
  induction hn : s.stepsLeft using Nat.strong_induction_on generalizing s with
  | _ n ih =>
    by_cases hend : s.RunEnded
    · exact ⟨0, s, rfl, hend⟩
    · obtain ⟨t, hstep⟩ := (step_answers_iff_wf s).2 hc
      have hlt : t.stepsLeft < n := hn ▸ step_lowers_stepsLeft hlast hr.edge hstep hend
      have hct : t.cfg.wf = true := (step_keeps_parameters hstep).1 ▸ hc
      obtain ⟨k, u, hrun, hu⟩ :=
        ih _ hlt hct (step_keeps_fourthIsLast hlast hstep) (hr.step hstep) rfl
      exact ⟨k + 1, u, (runSteps_succ hstep k).trans hrun, hu⟩

/-- At the end of a run nothing is owed: the account is the words sent. -/
theorem State.RunEnded.account {s : State} (h : s.RunEnded) : s.account = s.sent := by
  obtain ⟨hs, ho⟩ := h
  simp [State.account_of_idle hs, ho, responses]

end Sys2Proof.Machine
end

section
/-! The obligations of 70_reset_and_hazards.md. -/

namespace Sys2Proof.Machine

/-- Settles O54: the work left bounds the run, and the account, kept by every step, is at the end of the
run the words sent. -/
theorem everyRunDeliversItsResponses : Obligations.EveryRunDeliversItsResponses := by
  intro s hinv hr
  obtain ⟨k, t, hrun, hend⟩ := exists_runEnded hinv.cfg hinv.fourthIsLast hr
  refine ⟨k, t, hrun, hend, ?_⟩
  calc t.sent
      = t.account := hend.account.symm
    _ = s.account := runSteps_keeps_account hinv.fourthIsLast hr hrun

/-- Settles O3: the unit is idle after the reset, so that its account, which every later run keeps, holds
no word of the abandoned command. -/
theorem resetAbandonsTheCommand : Obligations.ResetAbandonsTheCommand := by
  intro s hc hrst
  refine ⟨_, step_of_reset hc hrst, rfl, rfl, rfl, State.rspValid_of_idle rfl, fun hr k u hrun => ?_⟩
  have haccount : u.account = s.sent ++ responses s.cfg s.table s.offered :=
    (runSteps_keeps_account (State.fourthIsLast_of_idle rfl) hr hrun).trans
      (State.account_of_idle rfl)
  exact haccount ▸ u.sent_isPrefix_account

/-- Settles O8, by induction on the number of edges: at each of them the unit waits. -/
theorem unitWaitsForTheConsumer : Obligations.UnitWaitsForTheConsumer := by
  intro n
  induction n with
  | zero => intros; rfl
  | succ n ih =>
    intro s hc hs hn hstall
    cases he : s.edges with
    | nil => simp [he] at hn
    | cons e es =>
      have hedge : s.edge = e := by simp [State.edge, he]
      have htail : s.tick.edges = es := by simp [he]
      obtain ⟨hrst, hready⟩ := hedge ▸ hstall e (by simp [he])
      have hwait : step s = .next s.tick :=
        step_of_waits hc hrst (State.waits_of_not_ready hs hrst hready)
      have hrest : ∀ e' ∈ s.tick.edges.take n, e'.rst = false ∧ e'.rspReady = false := fun e' he' =>
        hstall e' (he ▸ List.mem_cons_of_mem e (htail ▸ he'))
      rw [runSteps_succ hwait, ih s.tick hc hs (by simpa [he] using hn) hrest, htail]
      rfl

end Sys2Proof.Machine
end
